-- ==== Sys2Proof/Word.lean ====
section
/-! DEFINITION. The words of the Fade Engine: the widths of spec/00_scope.md R7 and spec/30_encoding.md R51, R54, R56. -/

namespace Sys2Proof

/-- A byte of FADING, DIR or TARGET, and one channel of a colour (20 R30, 30 R56). -/
abbrev Byte := BitVec 8

/-- A packed colour, red in bits 23:16, green in 15:8, blue in 7:0 (30 R56). -/
abbrev Color := BitVec 24

/-- A time value in milliseconds of the host's clock, modulo 2^32 (00 R7 TIME_W, 10 R18). -/
abbrev Time := BitVec 32

/-- The pixel operand of a command (00 R7 PIX_W, 30 R51). -/
abbrev Pix := BitVec 16

/-- The extinguished counter (00 R7 EXT_W, 10 R17). -/
abbrev Count := BitVec 9

/-- A command word (00 R7 CMD_W, 30 R51). -/
abbrev Cmd := BitVec 52

/-- A response word (00 R7 RESP_W, 30 R54). -/
abbrev Resp := BitVec 32

end Sys2Proof
end

