-- ==== Sys2Proof/Config.lean ====
section
/-! DEFINITION. What is fixed for one instance of the engine: the pixel count N (spec/00_scope.md R6, spec/10_state.md R26).
The spec leaves no value open (spec/41_fade_control.md R91), so there is no free value here. -/

namespace Sys2Proof

/-- The one parameter of the block: `pixels` is N, "fixed at construction" (00 R6). -/
structure Config where
  pixels : Nat
  deriving DecidableEq, Repr

/-- `B = ceil(N/8)`, the byte length of FADING and of DIR (00 R6). -/
def Config.bytes (c : Config) : Nat := (c.pixels + 7) / 8

/-- The strip of `State.reset`: N = 10, the strip of BB's own scenario (42 R113). DESIGN CHOICE (log 1), unsafe for a
claim about `State.reset` alone: the spec fixes no N, and every other N is reached through `State.resetWith`. -/
def Config.atReset : Config := { pixels := 10 }

end Sys2Proof
end

