-- ==== Sys2Proof/Machine/State.lean ====
section
/-! DEFINITION. The state of the machine (spec/10_state.md R10, R22), the reasons a step can stop, and the state after
reset (spec/10_state.md R24, spec/70_reset_and_hazards.md R160 to R162). -/

namespace Sys2Proof.Machine

/-- An indexed storage space with entries of `w` bits (20 R30): the entries that are not 0, by rising index. An entry
that is not listed reads as 0: the reset contents of FADING, DIR and TARGET (10 R24), and a DESIGN CHOICE for LIVE (log 2). -/
abbrev Memory (w : Nat) := List (Nat × BitVec w)

/-- The canonical form: indices strictly rising, no listed entry 0. -/
abbrev Memory.wf {w : Nat} (m : Memory w) : Prop :=
  m.Pairwise (fun a b => a.1 < b.1) ∧ ∀ c ∈ m, c.2 ≠ 0

/-- Every listed entry exists: its index is below the space's size (20 R39). -/
abbrev Memory.within {w : Nat} (m : Memory w) (size : Nat) : Prop := ∀ c ∈ m, c.1 < size

/-- The direction of a fade leg (10 R12, R13). -/
inductive Direction where
  /-- Decreasing, stored as 0. -/
  | dec
  /-- Increasing, stored as 1. -/
  | inc
  deriving DecidableEq, Repr

/-- One access of the engine on the LIVE port (20 R33; the signals `live_addr`, `live_re`, `live_we`, `live_wdata` of 30 R64). -/
inductive LiveAccess where
  /-- LiveRead of entry `p`. -/
  | read (p : Nat)
  /-- LiveWrite of colour `c` to entry `p`. -/
  | write (p : Nat) (c : Color)
  deriving DecidableEq, Repr

/-- What the host can do between two operations (49 R125), and the hardware reset (70 R160). -/
inductive HostMove where
  /-- Present a command word to the engine (49 R125 a, 30 R50). -/
  | command (w : Cmd)
  /-- Assert and release `rst` (70 R160). -/
  | rst
  /-- Present a command word, and assert `rst` while its operation is in progress, `made` of its LIVE accesses being made
  by then (70 R160; log 8). -/
  | abandon (w : Cmd) (made : Nat)
  /-- Read LIVE entry `p` (49 R125 b). -/
  | liveRead (p : Nat)
  /-- Write LIVE entry `p` (49 R125 c). -/
  | liveWrite (p : Nat) (c : Color)
  /-- Present LIVE to the strip (49 R125 d, R129). -/
  | present
  /-- Set the strip's brightness (49 R125 e, 60 R153). -/
  | setBrightness (level : Byte)
  deriving DecidableEq, Repr

/-- The machine. The first eight fields are the spec's (N, the six items of 10 R10, and LIVE of 10 R22); the last four
are the model's own ports: what the latest step gave out, and what the host will do (logs 3, 5, 6). -/
structure State where
  /-- N (00 R6, 10 R26): a parameter, changed by no step. -/
  cfg : Config
  /-- FADING (10 R11, 20 R31). -/
  fading : Memory 8
  /-- DIR (10 R12, 20 R31). -/
  dir : Memory 8
  /-- TARGET (10 R14, 20 R35). -/
  target : Memory 8
  /-- FADEINONLY (10 R16). -/
  fadeInOnly : Bool
  /-- EXTCNT (10 R17). -/
  extcnt : Count
  /-- NEXTT (10 R18). -/
  nextt : Time
  /-- LIVE, the strip's live colours (10 R22, 20 R33). -/
  live : Memory 24
  /-- The response given by the latest step (30 R50, R54); none where it carried out no operation (log 5). -/
  resp : Option Resp
  /-- The LIVE accesses of the latest operation, oldest first (log 6). -/
  livePort : List LiveAccess
  /-- What the host's own LIVE read returned, when the latest step was one (log 6). -/
  hostRead : Option Color
  /-- The host's coming moves, next first (log 3). -/
  host : List HostMove
  deriving DecidableEq, Repr

/-- Why the machine stops. No operation raises one (60 R140). -/
inductive Fault where
  /-- Raised by a host read or write of LIVE entry `p` that does not exist, `p >= N` (20 R39), and by nothing else. Safe:
  the spec gives such an access no meaning (log 7). -/
  | noSuchLiveEntry (p : Nat)
  deriving DecidableEq, Repr

/-- Why an instruction has no meaning here. -/
inductive Refusal where
  /-- Raised by an arm of `exec` that has no meaning yet; no arm is left so. Safe. -/
  | notModelled (mnemonic : String)
  deriving DecidableEq, Repr

/-- The machine right after hardware reset, for every strip and every content of LIVE: the engine's six items at the
values of 10 R24, LIVE as the host side left it (70 R162), nothing given out yet and no host move waiting. -/
def State.resetWith (cfg : Config) (live : Memory 24) : State where
  cfg := cfg
  fading := []
  dir := []
  target := []
  fadeInOnly := false
  extcnt := 0
  nextt := 0
  live := live
  resp := none
  livePort := []
  hostRead := none
  host := []

/-- The state after reset of the model's own instance: N = 10 (log 1) and every LIVE entry black (log 2), both DESIGN
CHOICES; the claims about reset are made of `State.resetWith` for every N and every LIVE. -/
def State.reset : State := State.resetWith Config.atReset []

end Sys2Proof.Machine
end

