-- ==== Sys2Proof/Machine/Ops.lean ====
section
/-! DEFINITION. The named operations over the storage spaces and registers: entries, packed bits (spec/20_memory.md R31),
the LIVE port (R33), the response, the scan over pixels, and hardware reset (spec/70_reset_and_hazards.md R160).
There is no exception to take and none to return from (spec/60_exceptions.md R140, R144, R145). -/

namespace Sys2Proof.Machine

/-! ## Entries of a space -/

/-- The value of entry `a`; an entry that is not listed reads as 0. -/
def readMem {w : Nat} : Memory w → Nat → BitVec w
  | [], _ => 0
  | (b, v) :: m, a => if a = b then v else readMem m a

/-- The space without entry `a`. -/
def eraseMem {w : Nat} (m : Memory w) (a : Nat) : Memory w := m.filter (fun c => c.1 != a)

/-- The space with entry `a` listed as `v`, at its place by rising index. -/
def insertMem {w : Nat} : Memory w → Nat → BitVec w → Memory w
  | [], a, v => [(a, v)]
  | (b, u) :: m, a, v => if a < b then (a, v) :: (b, u) :: m else (b, u) :: insertMem m a v

/-- Write entry `a`: a 0 is what an unlisted entry reads as, so writing it unlists the entry. -/
def writeMem {w : Nat} (m : Memory w) (a : Nat) (v : BitVec w) : Memory w :=
  if v = 0 then eraseMem m a else insertMem (eraseMem m a) a v

/-! ## Packed bits (20 R31) -/

/-- The byte that holds pixel `p`'s bit: `p div 8`. -/
def byteIndex (p : Nat) : Nat := p / 8

/-- The place of pixel `p`'s bit in its byte: `p mod 8`, bit 0 the least significant. -/
def bitIndex (p : Nat) : Nat := p % 8

/-- `(V[p div 8] >> (p mod 8)) & 1`. -/
def getBit (m : Memory 8) (p : Nat) : Bool := (readMem m (byteIndex p)).getLsbD (bitIndex p)

/-- `V[p div 8] <- (V[p div 8] & ~(1 << (p mod 8))) | (v << (p mod 8))`: the other seven bits keep their values. -/
def putBit (m : Memory 8) (p : Nat) (v : Bool) : Memory 8 :=
  writeMem m (byteIndex p)
    ((readMem m (byteIndex p) &&& ~~~(1#8 <<< bitIndex p)) ||| ((BitVec.ofBool v).zeroExtend 8 <<< bitIndex p))

/-- 10 R13: 1 is Increasing, 0 is Decreasing. -/
def Direction.ofBit : Bool → Direction
  | true => .inc
  | false => .dec

/-- 10 R13. -/
def Direction.toBit : Direction → Bool
  | .inc => true
  | .dec => false

/-! ## What the machine holds for a pixel -/

/-- `isFading(p)` (20 R31). -/
def State.isFading (s : State) (p : Nat) : Bool := getBit s.fading p

/-- `dir(p)` (20 R31, 10 R13). -/
def State.dirOf (s : State) (p : Nat) : Direction := .ofBit (getBit s.dir p)

/-- `TARGET[p]` (20 R35). -/
def State.targetOf (s : State) (p : Nat) : Byte := readMem s.target p

/-- The colour of LIVE entry `p` (20 R33). -/
def State.liveOf (s : State) (p : Nat) : Color := readMem s.live p

/-- `isFading(p) <- v`. -/
def State.setFading (s : State) (p : Nat) (v : Bool) : State := { s with fading := putBit s.fading p v }

/-- `dir(p) <- d`. -/
def State.setDir (s : State) (p : Nat) (d : Direction) : State := { s with dir := putBit s.dir p d.toBit }

/-- `TARGET[p] <- q`. -/
def State.setTarget (s : State) (p : Nat) (q : Byte) : State := { s with target := writeMem s.target p q }

/-- LIVE entry `p` becomes `c`, by whoever writes it. -/
def State.setLive (s : State) (p : Nat) (c : Color) : State := { s with live := writeMem s.live p c }

/-- `FADEINONLY <- f`. -/
def State.setFadeInOnly (s : State) (f : Bool) : State := { s with fadeInOnly := f }

/-- `EXTCNT <- n`. -/
def State.setExtcnt (s : State) (n : Count) : State := { s with extcnt := n }

/-- `NEXTT <- t`. -/
def State.setNextt (s : State) (t : Time) : State := { s with nextt := t }

/-- The engine's access `a` appears on the LIVE port (30 R64). -/
def State.onPort (s : State) (a : LiveAccess) : State := { s with livePort := s.livePort ++ [a] }

/-- `resp <- r` (30 R50, R54). -/
def State.respond (s : State) (r : Resp) : State := { s with resp := some r }

/-! ## The engine's LIVE port (20 R33) -/

/-- `LiveRead(p)`: the colour last written to entry `p` by anyone; LIVE does not change (20 R38). -/
def liveRead (s : State) (p : Nat) : Color × State := (s.liveOf p, s.onPort (.read p))

/-- `LiveWrite(p, c)`. -/
def liveWrite (s : State) (p : Nat) (c : Color) : State := (s.setLive p c).onPort (.write p c)

/-! ## The scan over pixels -/

/-- `for p in 0 .. n-1, ascending` (42 R104, 43 R115): `f` is applied for pixel 0 first. -/
def forPixels {α : Type} : Nat → (Nat → α → α) → α → α
  | 0, _, a => a
  | n + 1, f, a => f n (forPixels n f a)

/-! ## Hardware reset -/

/-- `rst` (70 R160): every piece of engine state at its value of 10 R24, no response; N is the same after every reset,
LIVE is not the engine's to reset (70 R162), and the host's coming moves are the host's. -/
def hardReset (s : State) : State := { State.resetWith s.cfg s.live with host := s.host }

end Sys2Proof.Machine
end

