-- ==== Sys2Proof/Machine/Datapath.lean ====
section
/-! DEFINITION. The colour datapath (spec/40_color_datapath.md R70 to R80): quantize, expand, step size, and one step of
a leg, lane by lane. All arithmetic is unsigned on 8-bit channels (R79). -/

namespace Sys2Proof.Machine

/-! ## Channels (30 R56) -/

/-- `r = c[23:16]`. -/
def red (c : Color) : Byte := c.extractLsb' 16 8

/-- `g = c[15:8]`. -/
def green (c : Color) : Byte := c.extractLsb' 8 8

/-- `b = c[7:0]`. -/
def blue (c : Color) : Byte := c.extractLsb' 0 8

/-- `{r, g, b}`. -/
def rgb (r g b : Byte) : Color := r ++ g ++ b

/-! ## Quantization -/

/-- `Reduce(c)` (40 R70): two bits of each channel, at 7:6, 4:3 and 1:0. -/
def reduce (c : Color) : Byte :=
  (red c &&& 0xC0) ||| ((green c &&& 0xC0) >>> 3) ||| ((blue c &&& 0xC0) >>> 6)

/-- `Expand(q)` (40 R71): three bits for red, three for green, two for blue; not the inverse layout of `reduce`
(90_conflicts.md C1). -/
def expand (q : Byte) : Color := rgb (q &&& 0xE0) ((q &&& 0x1C) <<< 3) ((q &&& 0x03) <<< 6)

/-! ## Step size -/

/-- STEP_COUNT (00 R7). -/
def stepCount : Byte := 80

/-- MIN_STEP (00 R7). -/
def minStep : Color := 0x010101

/-- A channel's step, `(x div 80) + 1` (40 R74). -/
def chanStep (x : Byte) : Byte := x / stepCount + 1

/-- `StepOf(q)` (40 R74), the black special case as BB states it. It is never zero (40 R75), so the skip policy for a
zero step has no case to act on (log 13). -/
def stepOf (q : Byte) : Color :=
  if expand q = 0 then minStep
  else rgb (chanStep (red (expand q))) (chanStep (green (expand q))) (chanStep (blue (expand q)))

/-! ## One step of a leg -/

/-- One channel of an increasing step (40 R76): target `t`, current `c`, step `x`; the new value and whether it landed. -/
def chanUp (t c x : Byte) : Byte × Bool :=
  let bound := if c ≤ t then t else c
  let new := if bound - c ≤ x then bound else c + x
  (new, new == bound)

/-- One channel of a decreasing step (40 R77): current `c`, step `x`. -/
def chanDown (c x : Byte) : Byte × Bool :=
  let new := if x ≤ c then c - x else 0
  (new, new == 0)

/-- The three lanes joined: the new colour, and `legComplete`, the conjunction of the landed bits (40 R78, R80). -/
def joinLanes (r g b : Byte × Bool) : Color × Bool := (rgb r.1 g.1 b.1, r.2 && g.2 && b.2)

/-- An increasing step of colour `c` toward target byte `q` (40 R76). -/
def stepUp (q : Byte) (c : Color) : Color × Bool :=
  joinLanes (chanUp (red (expand q)) (red c) (red (stepOf q)))
    (chanUp (green (expand q)) (green c) (green (stepOf q)))
    (chanUp (blue (expand q)) (blue c) (blue (stepOf q)))

/-- A decreasing step of colour `c`; the target byte `q` enters through the step size only (40 R77). -/
def stepDown (q : Byte) (c : Color) : Color × Bool :=
  joinLanes (chanDown (red c) (red (stepOf q))) (chanDown (green c) (green (stepOf q)))
    (chanDown (blue c) (blue (stepOf q)))

/-- One step of a leg in direction `d`. -/
def legStep (d : Direction) (q : Byte) (c : Color) : Color × Bool :=
  match d with
  | .inc => stepUp q c
  | .dec => stepDown q c

/-- `ApplyStep(p)` (40 R76 to R78): one LiveRead and one LiveWrite of entry `p`, the write even when the colour stays;
the result is `legComplete`. No engine state is written. -/
def applyStep (s : State) (p : Nat) : Bool × State :=
  let seen := liveRead s p
  let new := legStep (s.dirOf p) (s.targetOf p) seen.1
  (new.2, liveWrite seen.2 p new.1)

end Sys2Proof.Machine
end

