-- ==== Sys2Proof/Machine/Flags.lean ====
section
/-! DEFINITION. The result bits and the response layouts (spec/30_encoding.md R54, R55; spec/10_state.md R21), and the
eligibility of a tick (spec/42_tick.md R101). No flag is stored. -/

namespace Sys2Proof.Machine

/-- `resp[0] = b`, other bits 0 (30 R55: ANYFADING, ISFADING, CAPSTEP). -/
def bitResp (b : Bool) : Resp := (BitVec.ofBool b).zeroExtend 32

/-- TICK's layout: `resp[0] = changed`, `resp[1] = eligible`, `resp[16:8] = ext`, other bits 0 (30 R55, 42 R108). -/
def tickResp (changed eligible : Bool) (ext : Count) : Resp :=
  (BitVec.ofBool changed).zeroExtend 32 ||| ((BitVec.ofBool eligible).zeroExtend 32 <<< 1) |||
    (ext.zeroExtend 32 <<< 8)

/-- `((now - NEXTT) mod 2^32) < 2^31` (42 R101). -/
def isEligible (now nextt : Time) : Bool := decide ((now - nextt).toNat < 2 ^ 31)

end Sys2Proof.Machine
end

