-- ==== Sys2Proof/Machine/Operands.lean ====
section
/-! DEFINITION. The one operand form that has a check: the pixel operand (spec/41_fade_control.md R90, R91). Every other
operand is an unsigned field used as it stands (spec/30_encoding.md R52), taken out by the decoder. -/

namespace Sys2Proof.Machine

/-- `PixOK(p)`: `p < N`, on all 16 bits (41 R90, 90_conflicts.md C5). -/
def pixOK (s : State) (p : Pix) : Bool := decide (p.toNat < s.cfg.pixels)

/-- 41 R91: an out-of-range pixel drops the operation, which accesses nothing, changes nothing and returns 0; any other
pixel goes on with `f`. -/
def onPixel (s : State) (p : Pix) (f : Nat → State) : State :=
  if pixOK s p then f p.toNat else s.respond 0

end Sys2Proof.Machine
end

