-- ==== Sys2Proof/Machine/Colour.lean ====
section
/-! DEFINITION. The operations that expose the colour datapath: REDUCE, EXPAND, CAPSTEP (spec/40_color_datapath.md R82 to R84). -/

namespace Sys2Proof.Machine

/-- REDUCE (40 R82). -/
def execReduce (color : Color) (s : State) : Host.Outcome State Fault Refusal :=
  .next (s.respond ((reduce color).zeroExtend 32))

/-- EXPAND (40 R83). -/
def execExpand (q : Byte) (s : State) : Host.Outcome State Fault Refusal :=
  .next (s.respond ((expand q).zeroExtend 32))

/-- CAPSTEP (40 R84): one ApplyStep, fading or not, outside the rate limiter; the fade state stays. -/
def execCapstep (p : Pix) (s : State) : Host.Outcome State Fault Refusal :=
  .next (onPixel s p fun n => (applyStep s n).2.respond (bitResp (applyStep s n).1))

end Sys2Proof.Machine
end

