-- ==== Sys2Proof/Machine/Control.lean ====
section
/-! DEFINITION. The fade-control operations and the reserved opcodes (spec/41_fade_control.md R92 to R97). -/

namespace Sys2Proof.Machine

/-- NOP (41 R92). -/
def execNop (s : State) : Host.Outcome State Fault Refusal := .next (s.respond 0)

/-- SETFADING on an existing pixel (41 R93): black, fading, increasing, target quantized, whatever the pixel did before
(decision D32). -/
def startFade (s : State) (p : Nat) (color : Color) : State :=
  ((((liveWrite s p 0).setFading p true).setDir p .inc).setTarget p (reduce color))

/-- SETFADING (41 R93). -/
def execSetfading (p : Pix) (color : Color) (s : State) : Host.Outcome State Fault Refusal :=
  .next (onPixel s p fun n => (startFade s n color).respond 0)

/-- STOPFADING (41 R94): the fading bit only; direction, target and live colour stay. -/
def execStopfading (p : Pix) (s : State) : Host.Outcome State Fault Refusal :=
  .next (onPixel s p fun n => (s.setFading n false).respond 0)

/-- One pixel of FRESET: `if isFading(p) = 1 then dir(p) <- DEC` (41 R95). -/
def turnDown (p : Nat) (s : State) : State := if s.isFading p then s.setDir p .dec else s

/-- FRESET (41 R95). -/
def execFreset (s : State) : Host.Outcome State Fault Refusal :=
  .next ((forPixels s.cfg.pixels turnDown s).respond 0)

/-- SETFADEMODE (41 R96): the bit is set to `f`, not inverted (90_conflicts.md C6). -/
def execSetfademode (f : Bool) (s : State) : Host.Outcome State Fault Refusal :=
  .next ((s.setFadeInOnly f).respond 0)

/-- Reserved opcode 0xE: as NOP (41 R97). -/
def execReservedE (s : State) : Host.Outcome State Fault Refusal := .next (s.respond 0)

/-- Reserved opcode 0xF: as NOP (41 R97). -/
def execReservedF (s : State) : Host.Outcome State Fault Refusal := .next (s.respond 0)

end Sys2Proof.Machine
end

