-- ==== Sys2Proof/Machine/Query.lean ====
section
/-! DEFINITION. The query operations (spec/43_queries.md R115 to R120). -/

namespace Sys2Proof.Machine

/-- The number of fading pixels, over real pixels only (43 R115). -/
def countFading (s : State) : Nat :=
  forPixels s.cfg.pixels (fun p n => if s.isFading p then n + 1 else n) 0

/-- Whether some real pixel is fading (43 R116). -/
def anyFading (s : State) : Bool := forPixels s.cfg.pixels (fun p b => b || s.isFading p) false

/-- COUNTFADING (43 R115). -/
def execCountfading (s : State) : Host.Outcome State Fault Refusal :=
  .next (s.respond (BitVec.ofNat 32 (countFading s)))

/-- ANYFADING (43 R116). -/
def execAnyfading (s : State) : Host.Outcome State Fault Refusal := .next (s.respond (bitResp (anyFading s)))

/-- EXTINGUISHED (43 R118). -/
def execExtinguished (s : State) : Host.Outcome State Fault Refusal :=
  .next (s.respond (s.extcnt.zeroExtend 32))

/-- ISFADING (43 R119). -/
def execIsfading (p : Pix) (s : State) : Host.Outcome State Fault Refusal :=
  .next (onPixel s p fun n => s.respond (bitResp (s.isFading n)))

/-- GETTARGET (43 R120): the stored byte, stale or not. -/
def execGettarget (p : Pix) (s : State) : Host.Outcome State Fault Refusal :=
  .next (onPixel s p fun n => s.respond ((s.targetOf n).zeroExtend 32))

end Sys2Proof.Machine
end

