-- ==== Sys2Proof/Machine/Tick.lean ====
section
/-! DEFINITION. TICK (spec/42_tick.md R100 to R108). -/

namespace Sys2Proof.Machine

/-- FADE_INTERVAL, milliseconds (00 R7). -/
def fadeInterval : Time := 10

/-- "Stop fading and count as extinguished" (42 R106): the fading bit is cleared and EXTCNT goes up by one; direction,
target and live colour stay (10 R15). EXTCNT is 9 bits and cannot overflow while N is at most 256 (10 R17). -/
def extinguish (s : State) (p : Nat) : State := (s.setFading p false).setExtcnt (s.extcnt + 1)

/-- What a completed leg does to its pixel (42 R106). -/
def finishLeg (s : State) (p : Nat) : State :=
  match s.dirOf p with
  | .inc => if s.fadeInOnly then extinguish s p else s.setDir p .dec
  | .dec => extinguish s p

/-- The tick's visit of pixel `p` (42 R104 to R107); the Bool is the local `changed`. -/
def visitPixel (p : Nat) (k : Bool × State) : Bool × State :=
  if k.2.isFading p then
    let stepped := applyStep k.2 p
    (true, if stepped.1 then finishLeg stepped.2 p else stepped.2)
  else k

/-- The writes of an eligible tick before its scan (42 R103). -/
def beginTick (now : Time) (s : State) : State := (s.setNextt (now + fadeInterval)).setExtcnt 0

/-- The scan of an eligible tick, every pixel once in ascending order (42 R104). -/
def scanPixels (s : State) : Bool × State := forPixels s.cfg.pixels visitPixel (false, s)

/-- TICK (42 R100). -/
def execTick (now : Time) (s : State) : Host.Outcome State Fault Refusal :=
  if isEligible now s.nextt then
    let k := scanPixels (beginTick now s)
    .next (k.2.respond (tickResp k.1 true k.2.extcnt))
  else .next (s.respond (tickResp false false s.extcnt))

end Sys2Proof.Machine
end

