-- ==== Sys2Proof/Syntax.lean ====
section
/-! DEFINITION. The sixteen operations of the command port, one constructor per row of spec/opcode_table.json
(spec/30_encoding.md R52, R53). A constructor carries the operands the operation uses; an ignored field of the command
word has no effect on state or response (R52, R60), so it is no part of the instruction (log 15, safe). -/

namespace Sys2Proof

/-- The operations (30 R53). `p` is the pixel operand, not yet range-checked (41 R90). -/
inductive Instr where
  /-- 0x0 NOP (41 R92). -/
  | nop
  /-- 0x1 TICK, BB `performFade` (42 R100). -/
  | tick (now : Time)
  /-- 0x2 SETFADING (41 R93). -/
  | setfading (p : Pix) (color : Color)
  /-- 0x3 STOPFADING (41 R94). -/
  | stopfading (p : Pix)
  /-- 0x4 FRESET, BB `reset()`, not the hardware reset (41 R95, 70 R165). -/
  | freset
  /-- 0x5 SETFADEMODE (41 R96). -/
  | setfademode (fadeInOnly : Bool)
  /-- 0x6 COUNTFADING (43 R115). -/
  | countfading
  /-- 0x7 ANYFADING (43 R116). -/
  | anyfading
  /-- 0x8 EXTINGUISHED (43 R118). -/
  | extinguished
  /-- 0x9 ISFADING (43 R119). -/
  | isfading (p : Pix)
  /-- 0xA GETTARGET (43 R120). -/
  | gettarget (p : Pix)
  /-- 0xB CAPSTEP, BB `capColorValue` (40 R84). -/
  | capstep (p : Pix)
  /-- 0xC REDUCE (40 R82). -/
  | reduce (color : Color)
  /-- 0xD EXPAND (40 R83). -/
  | expand (q : Byte)
  /-- 0xE, reserved, kept apart from NOP (30 R59, 41 R97). -/
  | reservedE
  /-- 0xF, reserved, kept apart from NOP (30 R59, 41 R97). -/
  | reservedF
  deriving DecidableEq, Repr

end Sys2Proof
end

