-- ==== Sys2Proof/Machine/Dispatch.lean ====
section
/-! DEFINITION. One arm per operation, each a direct call of its meaning. -/

namespace Sys2Proof.Machine

def exec (i : Instr) (s : State) : Host.Outcome State Fault Refusal :=
  match i with
  | .nop => Sys2Proof.Machine.execNop s
  | .tick now => Sys2Proof.Machine.execTick now s
  | .setfading p color => Sys2Proof.Machine.execSetfading p color s
  | .stopfading p => Sys2Proof.Machine.execStopfading p s
  | .freset => Sys2Proof.Machine.execFreset s
  | .setfademode f => Sys2Proof.Machine.execSetfademode f s
  | .countfading => Sys2Proof.Machine.execCountfading s
  | .anyfading => Sys2Proof.Machine.execAnyfading s
  | .extinguished => Sys2Proof.Machine.execExtinguished s
  | .isfading p => Sys2Proof.Machine.execIsfading p s
  | .gettarget p => Sys2Proof.Machine.execGettarget p s
  | .capstep p => Sys2Proof.Machine.execCapstep p s
  | .reduce color => Sys2Proof.Machine.execReduce color s
  | .expand q => Sys2Proof.Machine.execExpand q s
  | .reservedE => Sys2Proof.Machine.execReservedE s
  | .reservedF => Sys2Proof.Machine.execReservedF s

end Sys2Proof.Machine
end

