-- ==== Sys2Proof/Machine/AsmSyntax.lean ====
section
/-! DEFINITION. A line of the assembler of spec/30_encoding.md R62 and the aliases of R63, as a term: the operands are
the plain numbers a line writes, so that a line may be ill-formed (an operand beyond its range). -/

namespace Sys2Proof.Machine

/-- One line (30 R62): a mnemonic with its operands, `.word`, or one of BB's names (30 R63). -/
inductive Asm where
  | nop
  | tick (now : Nat)
  | setfading (p color : Nat)
  | stopfading (p : Nat)
  | freset
  | setfademode (f : Nat)
  | countfading
  | anyfading
  | extinguished
  | isfading (p : Nat)
  | gettarget (p : Nat)
  | capstep (p : Nat)
  | reduce (color : Nat)
  | expand (q : Nat)
  /-- `.word`: any command word, for reserved opcodes and nonzero ignored fields. -/
  | word (w : Nat)
  /-- Alias `performFade`. -/
  | performFade (now : Nat)
  /-- Alias `setFading`. -/
  | aliasSetFading (p color : Nat)
  /-- Alias `stopFading`. -/
  | aliasStopFading (p : Nat)
  /-- Alias `reset`. -/
  | aliasReset
  /-- Alias `setFadeMode`. -/
  | aliasSetFadeMode (f : Nat)
  /-- Alias `countFading`. -/
  | aliasCountFading
  /-- Alias `areAnyFading`. -/
  | areAnyFading
  /-- Alias `capColorValue`. -/
  | capColorValue (p : Nat)
  /-- Alias `reduceColor`, its colour given channel by channel. -/
  | reduceColor (r g b : Nat)
  /-- Alias `expandColor`. -/
  | expandColor (q : Nat)
  /-- Alias `BREATHE`. -/
  | breathe
  /-- Alias `FADEINONLY`. -/
  | fadeInOnly
  deriving DecidableEq, Repr

end Sys2Proof.Machine
end

