-- ==== Sys2Proof/WellFormed.lean ====
section
/-! DEFINITION. The checks the spec makes on what is written down: the range of N (spec/00_scope.md R6) and the operand
ranges of an assembler line (spec/30_encoding.md R62). A term of `Instr` has nothing to check: its operands have the
widths of the fields they come from, and no encoding is illegal (30 R59, R60). -/

namespace Sys2Proof

/-- `1 <= N <= 256` (00 R6, decision D7). -/
abbrev Config.wellFormed (c : Config) : Prop := 1 ≤ c.pixels ∧ c.pixels ≤ 256

/-- The operand ranges of 30 R62; the operands of `reduceColor` are channels (30 R56, R63). -/
def Machine.Asm.wellFormed : Machine.Asm → Bool
  | .nop | .freset | .countfading | .anyfading | .extinguished => true
  | .aliasReset | .aliasCountFading | .areAnyFading | .breathe | .fadeInOnly => true
  | .tick now | .performFade now => decide (now ≤ 0xFFFFFFFF)
  | .setfading p color | .aliasSetFading p color => decide (p ≤ 0xFFFF) && decide (color ≤ 0xFFFFFF)
  | .stopfading p | .aliasStopFading p | .isfading p | .gettarget p => decide (p ≤ 0xFFFF)
  | .capstep p | .capColorValue p => decide (p ≤ 0xFFFF)
  | .setfademode f | .aliasSetFadeMode f => decide (f ≤ 1)
  | .reduce color => decide (color ≤ 0xFFFFFF)
  | .reduceColor r g b => decide (r ≤ 0xFF) && decide (g ≤ 0xFF) && decide (b ≤ 0xFF)
  | .expand q | .expandColor q => decide (q ≤ 0xFF)
  | .word w => decide (w < 2 ^ 52)

end Sys2Proof
end

