-- ==== Sys2Proof/Decode.lean ====
section
/-! DEFINITION. The command word (spec/30_encoding.md R51 to R53): its fields, the decoder, the encoder, and the mask of
the bits an operation uses (the letters of the `encoding` strings of spec/opcode_table.json). -/

namespace Sys2Proof

/-- `op = cmd[51:48]` (30 R51). -/
def opField (w : Cmd) : BitVec 4 := w.extractLsb' 48 4

/-- `pix = cmd[47:32]` (30 R51). -/
def pixField (w : Cmd) : Pix := w.extractLsb' 32 16

/-- `data = cmd[31:0]` (30 R51). -/
def dataField (w : Cmd) : BitVec 32 := w.extractLsb' 0 32

/-- `color = data[23:0]` (30 R52). -/
def colorOperand (w : Cmd) : Color := (dataField w).extractLsb' 0 24

/-- `fadeInOnly = data[0]` (30 R52). -/
def flagOperand (w : Cmd) : Bool := (dataField w).getLsbD 0

/-- `q = data[7:0]` (30 R52). -/
def byteOperand (w : Cmd) : Byte := (dataField w).extractLsb' 0 8

/-- The decoder: it looks at `op` only to select the operation (30 R53), takes each operand as its field stands (30 R52),
and is total: all sixteen values are listed and no encoding is illegal (30 R59). -/
def decode (w : Cmd) : Instr :=
  match (opField w).toNat with
  | 0x0 => .nop
  | 0x1 => .tick (dataField w)
  | 0x2 => .setfading (pixField w) (colorOperand w)
  | 0x3 => .stopfading (pixField w)
  | 0x4 => .freset
  | 0x5 => .setfademode (flagOperand w)
  | 0x6 => .countfading
  | 0x7 => .anyfading
  | 0x8 => .extinguished
  | 0x9 => .isfading (pixField w)
  | 0xA => .gettarget (pixField w)
  | 0xB => .capstep (pixField w)
  | 0xC => .reduce (colorOperand w)
  | 0xD => .expand (byteOperand w)
  | 0xE => .reservedE
  | _ => .reservedF

/-- The opcode of an operation (30 R53). -/
def opcodeOf : Instr → BitVec 4
  | .nop => 0x0
  | .tick _ => 0x1
  | .setfading _ _ => 0x2
  | .stopfading _ => 0x3
  | .freset => 0x4
  | .setfademode _ => 0x5
  | .countfading => 0x6
  | .anyfading => 0x7
  | .extinguished => 0x8
  | .isfading _ => 0x9
  | .gettarget _ => 0xA
  | .capstep _ => 0xB
  | .reduce _ => 0xC
  | .expand _ => 0xD
  | .reservedE => 0xE
  | .reservedF => 0xF

/-- `cmd = (op << 48) | (pix << 32) | data` (30 R62). -/
def cmdWord (op : BitVec 4) (pix : Pix) (data : BitVec 32) : Cmd :=
  (op.zeroExtend 52 <<< 48) ||| (pix.zeroExtend 52 <<< 32) ||| data.zeroExtend 52

/-- The command word of an operation, every ignored field 0 (30 R62). -/
def encode : Instr → Cmd
  | .nop => cmdWord 0x0 0 0
  | .tick now => cmdWord 0x1 0 now
  | .setfading p color => cmdWord 0x2 p (color.zeroExtend 32)
  | .stopfading p => cmdWord 0x3 p 0
  | .freset => cmdWord 0x4 0 0
  | .setfademode f => cmdWord 0x5 0 ((BitVec.ofBool f).zeroExtend 32)
  | .countfading => cmdWord 0x6 0 0
  | .anyfading => cmdWord 0x7 0 0
  | .extinguished => cmdWord 0x8 0 0
  | .isfading p => cmdWord 0x9 p 0
  | .gettarget p => cmdWord 0xA p 0
  | .capstep p => cmdWord 0xB p 0
  | .reduce color => cmdWord 0xC 0 (color.zeroExtend 32)
  | .expand q => cmdWord 0xD 0 (q.zeroExtend 32)
  | .reservedE => cmdWord 0xE 0 0
  | .reservedF => cmdWord 0xF 0 0

/-- The bits of a command word that an opcode uses: `op` and every operand bit, not the ignored bits `x` of the table's
`encoding` strings (30 R52, R60). -/
def usedMask (op : BitVec 4) : Cmd :=
  match op.toNat with
  | 0x1 => 0xF0000FFFFFFFF
  | 0x2 => 0xFFFFF00FFFFFF
  | 0x3 => 0xFFFFF00000000
  | 0x5 => 0xF000000000001
  | 0x9 => 0xFFFFF00000000
  | 0xA => 0xFFFFF00000000
  | 0xB => 0xFFFFF00000000
  | 0xC => 0xF000000FFFFFF
  | 0xD => 0xF0000000000FF
  | _ => 0xF000000000000

/-- Why a number is no command word. -/
inductive DecodeError where
  /-- The number has a bit above bit 51: the command port is 52 wires wide (30 R51, R64). -/
  | widerThanTheCommandPort
  deriving DecidableEq, Repr

/-- Decoding a plain number: total, refusing by name what does not fit a command word (30 R51, log 16). -/
def decodeNumber (w : Nat) : Except DecodeError Instr :=
  if w < 2 ^ 52 then .ok (decode (BitVec.ofNat 52 w)) else .error .widerThanTheCommandPort

/-- The instruction the decoder reads from the word `w` numbered as spec/opcode_table.json numbers its bits, those from
bit `nbits` up being 0. A command word is never split into bytes (20 R36), so the number is the word. -/
def decodeTableWord (nbits w : Nat) : Option Instr :=
  match decodeNumber (w % 2 ^ nbits) with
  | .ok i => some i
  | .error _ => none

end Sys2Proof
end

