-- ==== Sys2Proof/Machine/HostPort.lean ====
section
/-! DEFINITION. The host's side of a step (spec/49_host_context.md R125, R126; spec/30_encoding.md R50): taking the next
host move, and what each move that is no command does. -/

namespace Sys2Proof.Machine

/-- The outputs of a step are those of that step alone: nothing is given out by the step that begins. -/
def clearOutputs (s : State) : State := { s with resp := none, livePort := [], hostRead := none }

/-- A new step takes the host's next move off the list, `rest` being what is left. -/
def takeMove (s : State) (rest : List HostMove) : State := clearOutputs { s with host := rest }

/-- The operation a presented command word selects (30 R50, R53). -/
def fetch (w : Cmd) : Instr := decode w

/-- No move is waiting: the engine is idle and keeps all its state (60 R156; log 4). -/
def idle (s : State) : Host.Outcome State Fault Refusal := .next (clearOutputs s)

/-- `rst` (70 R160). -/
def hostRst (s : State) : Host.Outcome State Fault Refusal := .next (hardReset s)

/-- An access of the engine as LIVE sees it (20 R33): a read changes nothing. -/
def replayAccess (live : Memory 24) : LiveAccess → Memory 24
  | .read _ => live
  | .write p c => writeMem live p c

/-- `rst` during an operation whose whole course from `s` would be `o` (70 R160): the operation is abandoned without a
response, the engine's state is that of 10 R24, and LIVE, which the engine does not reset (70 R162), has the first `made`
accesses of the operation, in their order (log 8). -/
def hostAbandon (made : Nat) (o : Host.Outcome State Fault Refusal) (s : State) : Host.Outcome State Fault Refusal :=
  match o with
  | .next t =>
    let done := t.livePort.take made
    .next { hardReset { s with live := done.foldl replayAccess s.live } with livePort := done }
  | .fault r => .fault r
  | .refused r => .refused r

/-- The host reads LIVE entry `p` (49 R125 b); an entry that does not exist is a fault (20 R39, log 7). -/
def hostLiveRead (p : Nat) (s : State) : Host.Outcome State Fault Refusal :=
  if p < s.cfg.pixels then .next { s with hostRead := some (s.liveOf p) } else .fault (.noSuchLiveEntry p)

/-- The host writes LIVE entry `p` (49 R125 c); an entry that does not exist is a fault (20 R39, log 7). -/
def hostLiveWrite (p : Nat) (c : Color) (s : State) : Host.Outcome State Fault Refusal :=
  if p < s.cfg.pixels then .next (s.setLive p c) else .fault (.noSuchLiveEntry p)

/-- The host presents LIVE to the strip: LIVE does not change (49 R125 d, R129). -/
def hostPresent (s : State) : Host.Outcome State Fault Refusal := .next s

/-- The host sets the strip's brightness: what LiveRead returns does not change (49 R125 e, 20 R33, decision D25; log 9). -/
def hostSetBrightness (_level : Byte) (s : State) : Host.Outcome State Fault Refusal := .next s

/-- Place the table's word `w` as the host's next move: the model's stand-in for a host that issues it (log 3). -/
def placeCommand (s : State) (nbits w : Nat) : State :=
  { s with host := .command (BitVec.ofNat 52 (w % 2 ^ nbits)) :: s.host }

end Sys2Proof.Machine
end

