-- ==== Sys2Proof/Machine/Step.lean ====
section
/-! DEFINITION. One step: the host's next move, carried out whole (spec/30_encoding.md R50: one step per accepted
command; spec/00_scope.md R5: the host acts between operations only). -/

namespace Sys2Proof.Machine

/-- The next host move: an operation, a hardware reset (between operations or during one), or an act of the host on its own LIVE; with none waiting the
engine is idle. -/
def step (s : State) : Host.Outcome State Fault Refusal :=
  match s.host with
  | [] => idle s
  | .command w :: rest => exec (fetch w) (takeMove s rest)
  | .rst :: rest => hostRst (takeMove s rest)
  | .abandon w made :: rest => hostAbandon made (exec (fetch w) (takeMove s rest)) (takeMove s rest)
  | .liveRead p :: rest => hostLiveRead p (takeMove s rest)
  | .liveWrite p c :: rest => hostLiveWrite p c (takeMove s rest)
  | .present :: rest => hostPresent (takeMove s rest)
  | .setBrightness level :: rest => hostSetBrightness level (takeMove s rest)

/-- `s` with the table's word `w` as the command the host presents next. There is no program store (20 R42): a program
is the host's stream of commands (log 3). -/
def State.withFetchWord (s : State) (nbits w : Nat) : State := placeCommand s nbits w

end Sys2Proof.Machine
end

