-- ==== Sys2Proof/Machine/Assembler.lean ====
section
/-! DEFINITION. The assembler of spec/30_encoding.md R62 and the aliases of R63, over lines given as terms (log 14).
It is notation for command words; no rule of the engine depends on it (decision D34). -/

namespace Sys2Proof.Machine

/-- An alias as the line it expands to, exactly one (30 R63); any other line is itself. -/
def unalias : Asm → Asm
  | .performFade now => .tick now
  | .aliasSetFading p color => .setfading p color
  | .aliasStopFading p => .stopfading p
  | .aliasReset => .freset
  | .aliasSetFadeMode f => .setfademode f
  | .aliasCountFading => .countfading
  | .areAnyFading => .anyfading
  | .capColorValue p => .capstep p
  | .reduceColor r g b => .reduce (r <<< 16 ||| g <<< 8 ||| b)
  | .expandColor q => .expand q
  | .breathe => .setfademode 0
  | .fadeInOnly => .setfademode 1
  | l => l

/-- `cmd = (op << 48) | (pix << 32) | data` on the line's plain numbers (30 R62). -/
def packNumber (op pix data : Nat) : Nat := op <<< 48 ||| pix <<< 32 ||| data

/-- The number a line stands for: `op`, `pix` and `data` by mnemonic, every ignored field 0 (30 R62). -/
def lineNumber (l : Asm) : Nat :=
  match unalias l with
  | .nop => packNumber 0x0 0 0
  | .tick now => packNumber 0x1 0 now
  | .setfading p color => packNumber 0x2 p color
  | .stopfading p => packNumber 0x3 p 0
  | .freset => packNumber 0x4 0 0
  | .setfademode f => packNumber 0x5 0 f
  | .countfading => packNumber 0x6 0 0
  | .anyfading => packNumber 0x7 0 0
  | .extinguished => packNumber 0x8 0 0
  | .isfading p => packNumber 0x9 p 0
  | .gettarget p => packNumber 0xA p 0
  | .capstep p => packNumber 0xB p 0
  | .reduce color => packNumber 0xC 0 color
  | .expand q => packNumber 0xD 0 q
  | .word w => w
  | _ => 0

/-- The command word of a well-formed line; a line with an operand out of its range has none (30 R62). -/
def assemble (l : Asm) : Option Cmd := if l.wellFormed then some (BitVec.ofNat 52 (lineNumber l)) else none

end Sys2Proof.Machine
end

