-- ==== Sys2Proof/Safety.lean ====
section
/-! DEFINITION. What the claims are stated with: the invariant of spec/10_state.md R25, one pixel's state and its life
(spec/42_tick.md R109), and what a frame leaves alone. Nothing here is used by the machine. -/

namespace Sys2Proof.Machine

/-- The machine's invariant: N in its range (00 R6), the spaces canonical and within their sizes (20 R30, R39), padding bits
0 (10 R25.1), stored targets reachable (10 R25.2, 40 R73), and EXTCNT at most N (10 R25.3). -/
structure State.Inv (s : State) : Prop where
  cfgOK : s.cfg.wellFormed
  fadingWf : s.fading.wf
  dirWf : s.dir.wf
  targetWf : s.target.wf
  liveWf : s.live.wf
  fadingWithin : s.fading.within s.cfg.bytes
  dirWithin : s.dir.within s.cfg.bytes
  targetWithin : s.target.within s.cfg.pixels
  liveWithin : s.live.within s.cfg.pixels
  fadingPadding : ∀ j, s.cfg.pixels ≤ j → j < 8 * s.cfg.bytes → getBit s.fading j = false
  dirPadding : ∀ j, s.cfg.pixels ≤ j → j < 8 * s.cfg.bytes → getBit s.dir j = false
  targetReachable : ∀ p, s.targetOf p &&& 0x24 = 0
  extcntLe : s.extcnt.toNat ≤ s.cfg.pixels

/-- What the machine holds for one pixel: its ten engine bits and its live colour (10 R11, R12, R14, R22). -/
structure Pixel where
  fading : Bool
  dir : Direction
  target : Byte
  live : Color
  deriving DecidableEq, Repr

/-- Pixel `p` of a state. -/
def State.pixel (s : State) (p : Nat) : Pixel := ⟨s.isFading p, s.dirOf p, s.targetOf p, s.liveOf p⟩

/-- One eligible tick seen from one pixel (42 R105, R106, R111): its new state, given FADEINONLY. -/
def Pixel.ticked (fadeInOnly : Bool) (x : Pixel) : Pixel :=
  if x.fading then
    let new := legStep x.dir x.target x.live
    let y := { x with live := new.1 }
    if new.2 then
      match x.dir with
      | .inc => if fadeInOnly then { y with fading := false } else { y with dir := .dec }
      | .dec => { y with fading := false }
    else y
  else x

/-- The states of a pixel's life (42 R109). -/
inductive Phase where
  | idle | up | down
  deriving DecidableEq, Repr

/-- 42 R109's encoding of the three states. -/
def Pixel.phase (x : Pixel) : Phase :=
  if x.fading then (match x.dir with | .inc => .up | .dec => .down) else .idle

/-- What the table of 42 R109 lets operation `i` make of pixel `p` in phase `a`, as long as `i` is not an eligible tick on
a fading pixel (whose outcome depends on the leg). -/
def phaseAfter (i : Instr) (p : Nat) (a : Phase) : Phase :=
  match i with
  | .setfading q _ => if q.toNat = p then .up else a
  | .stopfading q => if q.toNat = p then .idle else a
  | .freset => if a = .up then .down else a
  | .nop | .tick _ | .setfademode _ | .countfading | .anyfading | .extinguished | .isfading _ | .gettarget _ | .capstep _
  | .reduce _ | .expand _ | .reservedE | .reservedF => a

/-- The number of pixels below N that satisfy `f`. -/
def State.countPixels (s : State) (f : Nat → Bool) : Nat := ((List.range s.cfg.pixels).filter f).length

/-- `t` differs from `s` at most in the LIVE port, the response and the four storage spaces: N, FADEINONLY, EXTCNT, NEXTT,
the host's read and the host's coming moves are as before. -/
structure SameRegisters (s t : State) : Prop where
  cfg : t.cfg = s.cfg
  fadeInOnly : t.fadeInOnly = s.fadeInOnly
  extcnt : t.extcnt = s.extcnt
  nextt : t.nextt = s.nextt
  hostRead : t.hostRead = s.hostRead
  host : t.host = s.host

/-- Carry out operations one after another, the response of each left in the state it gives. -/
def execAll : List Instr → State → Host.Outcome State Fault Refusal
  | [], s => .next s
  | i :: is, s =>
    match exec i s with
    | .next t => execAll is t
    | .fault r => .fault r
    | .refused r => .refused r

/-- `k` steps of a leg in direction `d` with target byte `q`, from colour `c` (40 R81). -/
def legSteps (d : Direction) (q : Byte) : Nat → Color → Color
  | 0, c => c
  | k + 1, c => (legStep d q (legSteps d q k c)).1

/-- The number of ApplySteps a decreasing leg from colour `c` takes: `max(1, ceil(cr/sr), ceil(cg/sg), ceil(cb/sb))` (40 R81). -/
def downLength (q : Byte) (c : Color) : Nat :=
  let lane (ch : Color → Byte) : Nat := ((ch c).toNat + (ch (stepOf q)).toNat - 1) / (ch (stepOf q)).toNat
  max 1 (max (lane red) (max (lane green) (lane blue)))

/-- Clock values each at least 10 ms and less than 2^31 ms after the one before, the first after `t` (42 R110). -/
def spacedFrom : Time → List Time → Prop
  | _, [] => True
  | t, n :: ns => 10 ≤ (n - t).toNat ∧ (n - t).toNat < 2 ^ 31 ∧ spacedFrom n ns

/-- The bits of the response that an operation's layout names (30 R55). -/
def responseMask : Instr → Resp
  | .tick _ => 0x0001FF03
  | .countfading => 0x000001FF
  | .anyfading => 0x00000001
  | .extinguished => 0x000001FF
  | .isfading _ => 0x00000001
  | .gettarget _ => 0x000000FF
  | .capstep _ => 0x00000001
  | .reduce _ => 0x000000FF
  | .expand _ => 0x00FFFFFF
  | .nop | .setfading _ _ | .stopfading _ | .freset | .setfademode _ | .reservedE | .reservedF => 0

/-- The seven operations that only read (43 R121). -/
def Query : Instr → Prop
  | .countfading | .anyfading | .extinguished | .isfading _ | .gettarget _ | .reduce _ | .expand _ => True
  | .nop | .tick _ | .setfading _ _ | .stopfading _ | .freset | .setfademode _ | .capstep _ | .reservedE | .reservedF => False

/-- The entry of LIVE that an access is to. -/
def LiveAccess.entry : LiveAccess → Nat
  | .read p => p
  | .write p _ => p

end Sys2Proof.Machine
end

