-- ==== Sys2Proof/Certificates/Slice0/Obligations.lean ====
section
/-! DEFINITION. What is claimed of the machine, each claim from the numbered rules of spec/ its docstring names. -/

open Sys2Proof Sys2Proof.Machine

/-! ## The command word -/

/-- 30 R51 to R53, R62. Decoding the word of any operation gives it back, every operand bit included. -/
def Obligations.DecodeOfEncodeIsIdentity : Prop := ∀ i : Instr, decode (encode i) = i

/-- 30 R52. Each opcode takes its operands from the fields the table names; the fields and bits it does not name appear
nowhere on the right side, so they have no effect on state or response. -/
def Obligations.OperandsComeFromTheirFields : Prop :=
  ∀ (s : State) (rest : List HostMove) (pix : Pix) (data : BitVec 32),
    let run (op : BitVec 4) := step { s with host := .command (cmdWord op pix data) :: rest }
    let s' := takeMove s rest
    run 0x0 = exec .nop s' ∧
    run 0x1 = exec (.tick data) s' ∧
    run 0x2 = exec (.setfading pix (data.extractLsb' 0 24)) s' ∧
    run 0x3 = exec (.stopfading pix) s' ∧
    run 0x4 = exec .freset s' ∧
    run 0x5 = exec (.setfademode (data.getLsbD 0)) s' ∧
    run 0x6 = exec .countfading s' ∧
    run 0x7 = exec .anyfading s' ∧
    run 0x8 = exec .extinguished s' ∧
    run 0x9 = exec (.isfading pix) s' ∧
    run 0xA = exec (.gettarget pix) s' ∧
    run 0xB = exec (.capstep pix) s' ∧
    run 0xC = exec (.reduce (data.extractLsb' 0 24)) s' ∧
    run 0xD = exec (.expand (data.extractLsb' 0 8)) s' ∧
    run 0xE = exec .reservedE s' ∧
    run 0xF = exec .reservedF s'

/-- 30 R52, R60, and the `encoding` strings of the opcode table. Two words that agree in the bits the opcode uses are the
same instruction: nonzero ignored bits are legal and without effect. -/
def Obligations.IgnoredBitsHaveNoEffect : Prop :=
  ∀ w w' : Cmd, w &&& usedMask (opField w) = w' &&& usedMask (opField w) → decode w = decode w'

/-- 30 R62's worked encodings (and 91's junk words of 95 section 2): the word each line assembles to, and what it decodes
to. -/
def Obligations.WorkedEncodings : Prop :=
  assemble .nop = some 0x0000000000000 ∧ decode 0x0000000000000 = .nop ∧
  assemble (.tick 10) = some 0x100000000000A ∧ decode 0x100000000000A = .tick 10 ∧
  assemble (.tick 0xFFFFFFF8) = some 0x10000FFFFFFF8 ∧ decode 0x10000FFFFFFF8 = .tick 0xFFFFFFF8 ∧
  assemble (.setfading 3 0xFF0000) = some 0x2000300FF0000 ∧ decode 0x2000300FF0000 = .setfading 3 0xFF0000 ∧
  assemble (.setfading 15 0x404040) = some 0x2000F00404040 ∧ decode 0x2000F00404040 = .setfading 15 0x404040 ∧
  assemble (.stopfading 15) = some 0x3000F00000000 ∧ decode 0x3000F00000000 = .stopfading 15 ∧
  assemble .freset = some 0x4000000000000 ∧ decode 0x4000000000000 = .freset ∧
  assemble (.setfademode 1) = some 0x5000000000001 ∧ decode 0x5000000000001 = .setfademode true ∧
  assemble .countfading = some 0x6000000000000 ∧ decode 0x6000000000000 = .countfading ∧
  assemble .anyfading = some 0x7000000000000 ∧ decode 0x7000000000000 = .anyfading ∧
  assemble .extinguished = some 0x8000000000000 ∧ decode 0x8000000000000 = .extinguished ∧
  assemble (.isfading 9) = some 0x9000900000000 ∧ decode 0x9000900000000 = .isfading 9 ∧
  assemble (.gettarget 9) = some 0xA000900000000 ∧ decode 0xA000900000000 = .gettarget 9 ∧
  assemble (.capstep 9) = some 0xB000900000000 ∧ decode 0xB000900000000 = .capstep 9 ∧
  assemble (.reduce 0xABCDEF) = some 0xC000000ABCDEF ∧ decode 0xC000000ABCDEF = .reduce 0xABCDEF ∧
  assemble (.expand 0xA5) = some 0xD0000000000A5 ∧ decode 0xD0000000000A5 = .expand 0xA5 ∧
  decode 0xE000912345678 = .reservedE ∧ decode 0xF0009FFFFFFFF = .reservedF

/-- 30 R62, R63. A line with its operands in range assembles to the word of its operation; an alias assembles as the line
it expands to. -/
def Obligations.LinesAssembleToTheirOperation : Prop :=
  assemble .nop = some (encode .nop) ∧
  assemble .freset = some (encode .freset) ∧
  assemble .countfading = some (encode .countfading) ∧
  assemble .anyfading = some (encode .anyfading) ∧
  assemble .extinguished = some (encode .extinguished) ∧
  (∀ now : Time, assemble (.tick now.toNat) = some (encode (.tick now)) ∧
    assemble (.performFade now.toNat) = some (encode (.tick now))) ∧
  (∀ (p : Pix) (c : Color), assemble (.setfading p.toNat c.toNat) = some (encode (.setfading p c)) ∧
    assemble (.aliasSetFading p.toNat c.toNat) = some (encode (.setfading p c))) ∧
  (∀ p : Pix, assemble (.stopfading p.toNat) = some (encode (.stopfading p)) ∧
    assemble (.aliasStopFading p.toNat) = some (encode (.stopfading p)) ∧
    assemble (.isfading p.toNat) = some (encode (.isfading p)) ∧
    assemble (.gettarget p.toNat) = some (encode (.gettarget p)) ∧
    assemble (.capstep p.toNat) = some (encode (.capstep p)) ∧
    assemble (.capColorValue p.toNat) = some (encode (.capstep p))) ∧
  (∀ f : Bool, assemble (.setfademode f.toNat) = some (encode (.setfademode f)) ∧
    assemble (.aliasSetFadeMode f.toNat) = some (encode (.setfademode f))) ∧
  (∀ c : Color, assemble (.reduce c.toNat) = some (encode (.reduce c))) ∧
  (∀ r g b : Byte, assemble (.reduceColor r.toNat g.toNat b.toNat) = some (encode (.reduce (rgb r g b)))) ∧
  (∀ q : Byte, assemble (.expand q.toNat) = some (encode (.expand q)) ∧
    assemble (.expandColor q.toNat) = some (encode (.expand q))) ∧
  assemble .aliasReset = some (encode .freset) ∧
  assemble .aliasCountFading = some (encode .countfading) ∧
  assemble .areAnyFading = some (encode .anyfading) ∧
  assemble .breathe = some (encode (.setfademode false)) ∧
  assemble .fadeInOnly = some (encode (.setfademode true)) ∧
  (∀ w : Cmd, assemble (.word w.toNat) = some w)

/-! ## Steps and responses -/

/-- 30 R50 (one step per accepted command), and the model's own move list and outputs (logs 3, 5, 6). A step whose next
host move is a command is exec of the decoded operation, on the state with that move taken off the list and with nothing
given out yet. -/
def Obligations.StepRunsTheDecodedCommand : Prop :=
  ∀ (s : State) (w : Cmd) (rest : List HostMove), s.host = .command w :: rest →
    step s = exec (decode w) { s with host := rest, resp := none, livePort := [], hostRead := none }

/-- 60 R140. Every operation, in every state, with every content of LIVE, completes and returns a response; so every
command word presented does. -/
def Obligations.EveryCommandCompletesWithAResponse : Prop :=
  (∀ (i : Instr) (s : State), ∃ t r, exec i s = .next t ∧ t.resp = some r) ∧
  ∀ (s : State) (w : Cmd) (rest : List HostMove), s.host = .command w :: rest → ∃ t r, step s = .next t ∧ t.resp = some r

/-- 30 R54, R55. Every operation returns one response word in which the bits its layout does not name are 0, and
operations that return nothing return 0; COUNTFADING's field is wide enough because N is at most 256 (00 R6). -/
def Obligations.UnnamedResponseBitsAreZero : Prop :=
  ∀ (i : Instr) (s : State), s.cfg.wellFormed →
    ∃ t r, exec i s = .next t ∧ t.resp = some r ∧ r &&& ~~~responseMask i = 0

/-- 60 R156 and log 4. With no host move waiting the engine is idle and keeps all its state, and gives nothing out. -/
def Obligations.IdleEngineKeepsItsState : Prop :=
  ∀ s : State, s.host = [] → step s = .next { s with resp := none, livePort := [], hostRead := none }

/-! ## Reset -/

/-- 10 R24, 70 R161, for every strip and every content of LIVE (70 R162). The parts `resp`, `livePort`, `hostRead` and
`host` are the model's own (logs 3, 5, 6). -/
def Obligations.ResetValues : Prop :=
  ∀ (cfg : Config) (live : Memory 24),
    let s := State.resetWith cfg live
    (∀ a, readMem s.fading a = 0) ∧ (∀ a, readMem s.dir a = 0) ∧ (∀ a, readMem s.target a = 0) ∧
    s.fadeInOnly = false ∧ s.extcnt = 0 ∧ s.nextt = 0 ∧ s.live = live ∧ s.cfg = cfg ∧
    (∀ p, s.isFading p = false) ∧ (∀ p, s.dirOf p = .dec)

/-- 70 R160, R162. `rst` from every state: the engine's six items take the values of 10 R24, no response is given, N and
LIVE stay. -/
def Obligations.RstResetsTheEngineOnly : Prop :=
  ∀ (s : State) (rest : List HostMove), s.host = .rst :: rest →
    ∃ t, step s = .next t ∧
      (∀ a, readMem t.fading a = 0) ∧ (∀ a, readMem t.dir a = 0) ∧ (∀ a, readMem t.target a = 0) ∧
      t.fadeInOnly = false ∧ t.extcnt = 0 ∧ t.nextt = 0 ∧ t.resp = none ∧
      t.cfg = s.cfg ∧ t.live = s.live ∧ t.host = rest

/-- 70 R160, R162. `rst` during an operation, from every state: the engine's six items take the values of 10 R24 and no
response is given; LIVE has the accesses that the operation had made by then, the first `made` of those it makes when it
runs to its end. That LIVE keeps them is the model's reading (log 8). -/
def Obligations.RstAbandonsAnOperation : Prop :=
  ∀ (s : State) (w : Cmd) (made : Nat) (rest : List HostMove), s.host = .abandon w made :: rest →
    ∃ whole t, exec (decode w) (takeMove s rest) = .next whole ∧ step s = .next t ∧
      (∀ a, readMem t.fading a = 0) ∧ (∀ a, readMem t.dir a = 0) ∧ (∀ a, readMem t.target a = 0) ∧
      t.fadeInOnly = false ∧ t.extcnt = 0 ∧ t.nextt = 0 ∧ t.resp = none ∧ t.cfg = s.cfg ∧ t.host = rest ∧
      t.livePort = whole.livePort.take made ∧ t.live = (whole.livePort.take made).foldl replayAccess s.live ∧
      (made = 0 → t.live = s.live) ∧ (whole.livePort.length ≤ made → t.live = whole.live)

/-- 70 R163. The first tick after reset is eligible iff its `now` is below 2^31. -/
def Obligations.FirstTickAfterReset : Prop :=
  ∀ (cfg : Config) (live : Memory 24) (now : Time),
    ∃ t r, exec (.tick now) (State.resetWith cfg live) = .next t ∧ t.resp = some r ∧
      (r.getLsbD 1 = true ↔ now.toNat < 2 ^ 31)

/-! ## The colour datapath -/

/-- 40 R70, R82. REDUCE returns the top two bits of each channel at 7:6, 4:3 and 1:0 and nothing else, and writes nothing;
the results of Reduce are exactly the bytes with bits 5 and 2 clear. -/
def Obligations.ReduceOperation : Prop :=
  (∀ (c : Color) (s : State), ∃ r : Resp, exec (.reduce c) s = .next { s with resp := some r } ∧
    r.extractLsb' 6 2 = c.extractLsb' 22 2 ∧ r.getLsbD 5 = false ∧ r.extractLsb' 3 2 = c.extractLsb' 14 2 ∧
    r.getLsbD 2 = false ∧ r.extractLsb' 0 2 = c.extractLsb' 6 2 ∧ r.extractLsb' 8 24 = 0) ∧
  ∀ q : Byte, q &&& 0x24 = 0 ↔ ∃ c, reduce c = q

/-- 40 R71, R83. EXPAND returns bits 7:5 of q as red's top three, bits 4:2 as green's top three, bits 1:0 as blue's top
two, every other bit 0, for every byte; it writes nothing. -/
def Obligations.ExpandOperation : Prop :=
  ∀ (q : Byte) (s : State), ∃ r : Resp, exec (.expand q) s = .next { s with resp := some r } ∧
    r.extractLsb' 21 3 = q.extractLsb' 5 3 ∧ r.extractLsb' 16 5 = 0 ∧
    r.extractLsb' 13 3 = q.extractLsb' 2 3 ∧ r.extractLsb' 8 5 = 0 ∧
    r.extractLsb' 6 2 = q.extractLsb' 0 2 ∧ r.extractLsb' 0 6 = 0 ∧ r.extractLsb' 24 8 = 0

/-- 40 R72. The two compositions of the asymmetric layouts, and BB's stability property. -/
def Obligations.QuantizeRoundTrips : Prop :=
  (∀ c : Color, expand (reduce c) = c &&& 0xC0C0C0) ∧ (∀ q : Byte, reduce (expand q) = q &&& 0xDB) ∧
  ∀ c : Color, expand (reduce (expand (reduce c))) = expand (reduce c)

/-- 40 R74, R75, 30 R58. The step of each channel is its expanded target divided by 80, plus one, also for black, whose
step is 0x010101; it is never 0 and never above 3. -/
def Obligations.StepSizes : Prop :=
  ∀ q : Byte,
    (∀ ch ∈ [red, green, blue], (ch (stepOf q)).toNat = (ch (expand q)).toNat / 80 + 1 ∧
      1 ≤ (ch (stepOf q)).toNat ∧ (ch (stepOf q)).toNat ≤ 3) ∧
    (expand q = 0x000000 → stepOf q = 0x010101)

/-- 40 R76, R78, R84, 41 R91. CAPSTEP of an existing pixel whose direction is INC: each channel goes to its bound, the
larger of target and current, when the bound is no further than the step, else up by the step; it never goes down and
never beyond the bound; the response says whether all three landed. LIVE entry p alone is written. -/
def Obligations.CapstepIncreasing : Prop :=
  ∀ (s : State) (p : Pix), p.toNat < s.cfg.pixels → s.dirOf p.toNat = .inc →
    ∃ (t : State) (new : Color) (landed : Bool),
      exec (.capstep p) s = .next t ∧ t.resp = some (bitResp landed) ∧
      (let cur := s.liveOf p.toNat
       let bound (ch : Color → Byte) := max (ch (expand (s.targetOf p.toNat))).toNat (ch cur).toNat
       let size (ch : Color → Byte) := (ch (stepOf (s.targetOf p.toNat))).toNat
       (∀ ch ∈ [red, green, blue],
         (ch new).toNat = (if bound ch - (ch cur).toNat ≤ size ch then bound ch else (ch cur).toNat + size ch) ∧
         (ch cur).toNat ≤ (ch new).toNat ∧ (ch new).toNat ≤ bound ch) ∧
       (landed = true ↔ ∀ ch ∈ [red, green, blue], (ch new).toNat = bound ch)) ∧
      t.liveOf p.toNat = new ∧ (∀ a, a ≠ p.toNat → readMem t.live a = readMem s.live a) ∧
      t.livePort = s.livePort ++ [.read p.toNat, .write p.toNat new] ∧
      t.fading = s.fading ∧ t.dir = s.dir ∧ t.target = s.target ∧ SameRegisters s t

/-- 40 R77, R78, R84, 41 R91. CAPSTEP of an existing pixel whose direction is DEC: each channel goes down by its step,
floored at 0; the response says whether all three are 0. LIVE entry p alone is written. -/
def Obligations.CapstepDecreasing : Prop :=
  ∀ (s : State) (p : Pix), p.toNat < s.cfg.pixels → s.dirOf p.toNat = .dec →
    ∃ (t : State) (new : Color) (landed : Bool),
      exec (.capstep p) s = .next t ∧ t.resp = some (bitResp landed) ∧
      (∀ ch ∈ [red, green, blue],
        (ch new).toNat = (if (ch (stepOf (s.targetOf p.toNat))).toNat ≤ (ch (s.liveOf p.toNat)).toNat
          then (ch (s.liveOf p.toNat)).toNat - (ch (stepOf (s.targetOf p.toNat))).toNat else 0)) ∧
      (landed = true ↔ new = 0x000000) ∧
      t.liveOf p.toNat = new ∧ (∀ a, a ≠ p.toNat → readMem t.live a = readMem s.live a) ∧
      t.livePort = s.livePort ++ [.read p.toNat, .write p.toNat new] ∧
      t.fading = s.fading ∧ t.dir = s.dir ∧ t.target = s.target ∧ SameRegisters s t

/-- 40 R78. If a leg is not complete, the new colour differs from the old. -/
def Obligations.IncompleteLegMoves : Prop :=
  ∀ (d : Direction) (q : Byte) (c : Color), (legStep d q c).2 = false → (legStep d q c).1 ≠ c

/-- 40 R81. For a reachable target that is not black, the increasing leg from black and the decreasing leg from the
expanded target each complete on exactly the 64th step, at the expanded target and at black; toward black the increasing
leg completes on the first step and leaves the colour. -/
def Obligations.LegsTakeSixtyFourSteps : Prop :=
  (∀ q : Byte, q &&& 0x24 = 0 → q ≠ 0 →
    (∀ k < 63, (legStep .inc q (legSteps .inc q k 0)).2 = false) ∧
    legStep .inc q (legSteps .inc q 63 0) = (expand q, true) ∧
    (∀ k < 63, (legStep .dec q (legSteps .dec q k (expand q))).2 = false) ∧
    legStep .dec q (legSteps .dec q 63 (expand q)) = (0, true)) ∧
  ∀ c : Color, legStep .inc 0 c = (c, true)

/-- 40 R81, 42 R112. A decreasing leg from any colour, with any target byte, completes at black on exactly the step whose
number R81 gives, which is at most 255. -/
def Obligations.DecreasingLegLength : Prop :=
  ∀ (q : Byte) (c : Color),
    (∀ k, k + 1 < downLength q c → (legStep .dec q (legSteps .dec q k c)).2 = false) ∧
    legStep .dec q (legSteps .dec q (downLength q c - 1) c) = (0, true) ∧ downLength q c ≤ 255

/-! ## Fade control -/

/-- 41 R92, R97. NOP and the two reserved opcodes return 0, change nothing and access nothing, whatever their words hold in
`pix` and `data`. -/
def Obligations.NopAndReservedDoNothing : Prop :=
  (∀ s : State, exec .nop s = .next { s with resp := some 0 } ∧ exec .reservedE s = .next { s with resp := some 0 } ∧
    exec .reservedF s = .next { s with resp := some 0 }) ∧
  ∀ (s : State) (rest : List HostMove) (pix : Pix) (data : BitVec 32), ∀ op ∈ [(0x0 : BitVec 4), 0xE, 0xF],
    step { s with host := .command (cmdWord op pix data) :: rest } = .next { takeMove s rest with resp := some 0 }

/-- 41 R90, R91. The five operations with a pixel operand drop a pixel number that is not below N: no access, no change,
response 0. -/
def Obligations.OutOfRangePixelIsDropped : Prop :=
  ∀ (s : State) (p : Pix), s.cfg.pixels ≤ p.toNat →
    (∀ c, exec (.setfading p c) s = .next { s with resp := some 0 }) ∧
    exec (.stopfading p) s = .next { s with resp := some 0 } ∧
    exec (.isfading p) s = .next { s with resp := some 0 } ∧
    exec (.gettarget p) s = .next { s with resp := some 0 } ∧
    exec (.capstep p) s = .next { s with resp := some 0 }

/-- 41 R93. SETFADING of an existing pixel: fading, increasing, target quantized, live colour black, whatever it was
before; every other pixel, every other byte of FADING, DIR and TARGET, every other LIVE entry and every register stay;
the expanded target is the colour's top two bits per channel. -/
def Obligations.SetfadingStartsAFade : Prop :=
  ∀ (s : State) (p : Pix) (c : Color), p.toNat < s.cfg.pixels →
    ∃ t, exec (.setfading p c) s = .next t ∧ t.resp = some 0 ∧
      t.isFading p.toNat = true ∧ t.dirOf p.toNat = .inc ∧ t.targetOf p.toNat = reduce c ∧
      expand (t.targetOf p.toNat) = c &&& 0xC0C0C0 ∧ t.liveOf p.toNat = 0x000000 ∧
      (∀ q, q ≠ p.toNat → t.pixel q = s.pixel q) ∧
      (∀ a, a ≠ byteIndex p.toNat → readMem t.fading a = readMem s.fading a ∧ readMem t.dir a = readMem s.dir a) ∧
      (∀ a, a ≠ p.toNat → readMem t.target a = readMem s.target a ∧ readMem t.live a = readMem s.live a) ∧
      t.livePort = s.livePort ++ [.write p.toNat 0x000000] ∧ SameRegisters s t

/-- 41 R94. STOPFADING of an existing pixel clears its fading bit and nothing else. -/
def Obligations.StopfadingClearsTheBit : Prop :=
  ∀ (s : State) (p : Pix), p.toNat < s.cfg.pixels →
    ∃ t, exec (.stopfading p) s = .next t ∧ t.resp = some 0 ∧
      t.isFading p.toNat = false ∧ (∀ q, q ≠ p.toNat → t.isFading q = s.isFading q) ∧
      (∀ a, a ≠ byteIndex p.toNat → readMem t.fading a = readMem s.fading a) ∧
      t.dir = s.dir ∧ t.target = s.target ∧ t.live = s.live ∧ t.livePort = s.livePort ∧ SameRegisters s t

/-- 41 R95. FRESET gives every fading pixel the direction DEC; every other direction bit, padding included, and
everything else stay. -/
def Obligations.FresetTurnsFadingPixelsDown : Prop :=
  ∀ s : State, ∃ t, exec .freset s = .next t ∧ t.resp = some 0 ∧
    (∀ p, p < s.cfg.pixels → t.dirOf p = if s.isFading p then .dec else s.dirOf p) ∧
    (∀ p, s.cfg.pixels ≤ p → t.dirOf p = s.dirOf p) ∧
    t.fading = s.fading ∧ t.target = s.target ∧ t.live = s.live ∧ t.livePort = s.livePort ∧ SameRegisters s t

/-- 20 R38, 41 R95. FRESET byte-wide, with the padding bits of FADING 0 as the invariant has them:
`DIR[i] <- DIR[i] & ~FADING[i]` for every i. -/
def Obligations.FresetByteWide : Prop :=
  ∀ s : State, s.Inv → ∃ t, exec .freset s = .next t ∧
    ∀ a, readMem t.dir a = readMem s.dir a &&& ~~~readMem s.fading a

/-- 41 R96. SETFADEMODE sets FADEINONLY to its operand, and nothing else; of its word only `data[0]` counts. -/
def Obligations.SetfademodeSetsTheBit : Prop :=
  (∀ (s : State) (f : Bool), exec (.setfademode f) s = .next { s with fadeInOnly := f, resp := some 0 }) ∧
  ∀ (s : State) (rest : List HostMove) (pix : Pix) (data : BitVec 32),
    step { s with host := .command (cmdWord 0x5 pix data) :: rest } =
      .next { takeMove s rest with fadeInOnly := data.getLsbD 0, resp := some 0 }

/-! ## TICK -/

/-- 42 R101. The `eligible` bit of a tick's response, by the formula of the rule. -/
def Obligations.TickEligibility : Prop :=
  ∀ (s : State) (now : Time), ∃ t r, exec (.tick now) s = .next t ∧ t.resp = some r ∧
    (r.getLsbD 1 = true ↔ (now.toNat + 2 ^ 32 - s.nextt.toNat) % 2 ^ 32 < 2 ^ 31)

/-- 42 R102. An ineligible tick writes nothing and accesses no LIVE entry; it returns changed 0, eligible 0 and the
unchanged EXTCNT. -/
def Obligations.IneligibleTickWritesNothing : Prop :=
  ∀ (s : State) (now : Time), isEligible now s.nextt = false →
    ∃ r : Resp, exec (.tick now) s = .next { s with resp := some r } ∧
      r.getLsbD 0 = false ∧ r.getLsbD 1 = false ∧ r.extractLsb' 8 9 = s.extcnt

/-- 42 R103. Every eligible tick sets NEXTT to now + 10 modulo 2^32, also when no pixel is fading; then the response is
changed 0, eligible 1, ext 0 and EXTCNT is 0. N, FADEINONLY, TARGET and the host's side stay. -/
def Obligations.EligibleTickRegisters : Prop :=
  ∀ (s : State) (now : Time), isEligible now s.nextt = true →
    ∃ t, exec (.tick now) s = .next t ∧ t.nextt.toNat = (now.toNat + 10) % 2 ^ 32 ∧
      ((∀ p, p < s.cfg.pixels → s.isFading p = false) → t.extcnt = 0 ∧ t.resp = some 0x00000002) ∧
      t.cfg = s.cfg ∧ t.fadeInOnly = s.fadeInOnly ∧ t.target = s.target ∧ t.hostRead = s.hostRead ∧ t.host = s.host

/-- 42 R104, R105, R106, R111. An eligible tick is a map over pixels: each pixel below N becomes what one ApplyStep and
its leg's end make of that pixel alone, and no other bit or entry changes, padding included. -/
def Obligations.EligibleTickIsAMapOverPixels : Prop :=
  ∀ (s : State) (now : Time), isEligible now s.nextt = true →
    ∃ t, exec (.tick now) s = .next t ∧
      ∀ p, t.pixel p = if p < s.cfg.pixels then (s.pixel p).ticked s.fadeInOnly else s.pixel p

/-- 42 R106, for one fading pixel. When the leg is complete: an increasing leg stops the fade under FADEINONLY and turns
to DEC otherwise, a decreasing leg stops the fade; when it is not, the fade state stays. Stopping clears the fading bit
only. -/
def Obligations.LegCompletionPolicy : Prop :=
  ∀ (s : State) (now : Time) (p : Nat), isEligible now s.nextt = true → p < s.cfg.pixels → s.isFading p = true →
    ∃ t, exec (.tick now) s = .next t ∧
      (let leg := legStep (s.dirOf p) (s.targetOf p) (s.liveOf p)
       t.liveOf p = leg.1 ∧ t.targetOf p = s.targetOf p ∧
       (leg.2 = false → t.isFading p = true ∧ t.dirOf p = s.dirOf p) ∧
       (leg.2 = true → s.dirOf p = .inc → s.fadeInOnly = true → t.isFading p = false ∧ t.dirOf p = .inc) ∧
       (leg.2 = true → s.dirOf p = .inc → s.fadeInOnly = false → t.isFading p = true ∧ t.dirOf p = .dec) ∧
       (leg.2 = true → s.dirOf p = .dec → t.isFading p = false ∧ t.dirOf p = .dec))

/-- 10 R17, R25.4, 42 R103, R106. EXTCNT after an eligible tick is the number of pixels whose fading bit this tick
cleared, which is at most the number fading at its start. -/
def Obligations.ExtcntCountsTheExtinguished : Prop :=
  ∀ (s : State) (now : Time), s.cfg.wellFormed → isEligible now s.nextt = true →
    ∃ t, exec (.tick now) s = .next t ∧
      t.extcnt.toNat = s.countPixels (fun p => s.isFading p && !t.isFading p) ∧
      t.extcnt.toNat ≤ s.countPixels s.isFading

/-- 42 R107, R108. The response of an eligible tick: `changed` is 1 iff some pixel was fading, which is the same as: some
pixel's colour or fade state changed; `eligible` is 1; the count field is EXTCNT; every other bit is 0. -/
def Obligations.EligibleTickResponse : Prop :=
  ∀ (s : State) (now : Time), isEligible now s.nextt = true →
    ∃ t r, exec (.tick now) s = .next t ∧ t.resp = some r ∧
      (r.getLsbD 0 = true ↔ ∃ p, p < s.cfg.pixels ∧ s.isFading p = true) ∧
      (r.getLsbD 0 = true ↔ ∃ p, p < s.cfg.pixels ∧ t.pixel p ≠ s.pixel p) ∧
      r.getLsbD 1 = true ∧ r.extractLsb' 8 9 = t.extcnt ∧ r &&& 0xFFFE00FC = 0

/-- 42 R104, R105, 40 R78. The LIVE accesses of an eligible tick: for every fading pixel in ascending order one read and
then one write, even when the colour stays; none for any other pixel. -/
def Obligations.EligibleTickLiveAccesses : Prop :=
  ∀ (s : State) (now : Time), isEligible now s.nextt = true →
    ∃ t, exec (.tick now) s = .next t ∧
      t.livePort = s.livePort ++ ((List.range s.cfg.pixels).filter s.isFading).flatMap
        (fun p => [.read p, .write p (t.liveOf p)])

/-- 42 R110. After an eligible tick at `now`, a tick less than 2^31 ms later is eligible exactly when at least 10 ms have
passed, also across the wrap of the clock. -/
def Obligations.EligibleTicksAreTenMsApart : Prop :=
  ∀ (s : State) (now : Time), isEligible now s.nextt = true →
    ∃ t, exec (.tick now) s = .next t ∧
      ∀ later : Time, (later - now).toNat < 2 ^ 31 → (isEligible later t.nextt = true ↔ 10 ≤ (later - now).toNat)

/-- 42 R111. The state after an eligible tick's scan is the same for every scan order, but for the order of the LIVE
accesses on the port: they are the same accesses. -/
def Obligations.ScanOrderDoesNotMatter : Prop :=
  ∀ (s : State) (order : List Nat), s.Inv → order.Perm (List.range s.cfg.pixels) →
    let k := order.foldl (fun k p => visitPixel p k) (false, s)
    k.1 = (scanPixels s).1 ∧ k.2.livePort.Perm (scanPixels s).2.livePort ∧
      { k.2 with livePort := [] } = { (scanPixels s).2 with livePort := [] }

/-- 40 R81, 42 R106, R113. A pixel set fading toward a colour that does not quantize to black, then 64 eligible ticks: its
live colour is its expanded target; under FADEINONLY it is extinguished, lit; otherwise it is fading and DEC, and
64 eligible ticks more leave it black and not fading. The other pixels may do anything. -/
def Obligations.FadeReachesItsTargetIn64Ticks : Prop :=
  ∀ (s : State) (p : Pix) (c : Color) (first : Time) (ups downs : List Time),
    p.toNat < s.cfg.pixels → reduce c ≠ 0 → isEligible first s.nextt = true → spacedFrom first (ups ++ downs) →
    ups.length = 63 → downs.length = 64 →
    ∃ t, execAll (.setfading p c :: .tick first :: ups.map .tick) s = .next t ∧
      t.liveOf p.toNat = c &&& 0xC0C0C0 ∧
      (s.fadeInOnly = true → t.isFading p.toNat = false) ∧
      (s.fadeInOnly = false → t.isFading p.toNat = true ∧ t.dirOf p.toNat = .dec ∧
        ∃ u, execAll (downs.map .tick) t = .next u ∧ u.isFading p.toNat = false ∧ u.liveOf p.toNat = 0x000000)

/-! ## Queries -/

/-- 43 R115. COUNTFADING returns the number of fading pixels below N and writes nothing. -/
def Obligations.CountfadingCounts : Prop :=
  ∀ s : State, s.cfg.wellFormed → ∃ r : Resp, exec .countfading s = .next { s with resp := some r } ∧
    r.toNat = s.countPixels s.isFading ∧ r.toNat ≤ 256

/-- 43 R116, R117. ANYFADING returns 1 iff some pixel below N is fading, else 0, and writes nothing; it returns 1 iff
COUNTFADING returns a nonzero count. -/
def Obligations.AnyfadingAgreesWithCount : Prop :=
  ∀ s : State, s.cfg.wellFormed → ∃ r n : Resp, exec .anyfading s = .next { s with resp := some r } ∧
    exec .countfading s = .next { s with resp := some n } ∧
    ((∃ p, p < s.cfg.pixels ∧ s.isFading p = true) → r = 1) ∧
    ((∀ p, p < s.cfg.pixels → s.isFading p = false) → r = 0) ∧ (r = 1 ↔ n ≠ 0)

/-- 43 R118. EXTINGUISHED returns EXTCNT in bits 8:0, other bits 0; it writes nothing, so it does not clear the count. -/
def Obligations.ExtinguishedReturnsExtcnt : Prop :=
  ∀ s : State, ∃ r : Resp, exec .extinguished s = .next { s with resp := some r } ∧
    r.extractLsb' 0 9 = s.extcnt ∧ r.extractLsb' 9 23 = 0

/-- 43 R119. ISFADING returns the pixel's fading bit, and 0 for a pixel number that is not below N; it writes nothing. -/
def Obligations.IsfadingReturnsTheBit : Prop :=
  ∀ (s : State) (p : Pix), ∃ r : Resp, exec (.isfading p) s = .next { s with resp := some r } ∧
    r.toNat = if p.toNat < s.cfg.pixels ∧ (readMem s.fading (p.toNat / 8)).getLsbD (p.toNat % 8) then 1 else 0

/-- 43 R120. GETTARGET returns the pixel's stored target byte, fading or not, and 0 for a pixel number that is not below
N; it writes nothing; where the invariant holds, the result has bits 5 and 2 clear. -/
def Obligations.GettargetReturnsTheByte : Prop :=
  ∀ (s : State) (p : Pix), ∃ r : Resp, exec (.gettarget p) s = .next { s with resp := some r } ∧
    (r.toNat = if p.toNat < s.cfg.pixels then (readMem s.target p.toNat).toNat else 0) ∧
    (s.Inv → r &&& 0x24 = 0)

/-- 43 R121. The seven queries write no engine state and make no LIVE access, and whatever operation comes next does and
returns what it would have without the query. -/
def Obligations.QueriesArePure : Prop :=
  ∀ (i j : Instr) (s : State), Query i →
    ∃ r : Resp, exec i s = .next { s with resp := some r } ∧ exec j { s with resp := some r } = exec j s

/-! ## The whole machine -/

/-- 20 R43, 10 R10, R14, R16, R17, R18, 20 R34. What each operation may write: FADING only SETFADING, STOPFADING and TICK,
DIR only SETFADING, FRESET and TICK, TARGET only SETFADING, FADEINONLY only SETFADEMODE, EXTCNT and NEXTT only TICK, LIVE
only SETFADING, TICK and CAPSTEP, N no operation. -/
def Obligations.OnlyTheListedOperationsWrite : Prop :=
  ∀ (i : Instr) (s t : State), exec i s = .next t →
    t.cfg = s.cfg ∧
    (t.fading ≠ s.fading → (∃ p c, i = .setfading p c) ∨ (∃ p, i = .stopfading p) ∨ ∃ now, i = .tick now) ∧
    (t.dir ≠ s.dir → (∃ p c, i = .setfading p c) ∨ i = .freset ∨ ∃ now, i = .tick now) ∧
    (t.target ≠ s.target → ∃ p c, i = .setfading p c) ∧
    (t.fadeInOnly ≠ s.fadeInOnly → ∃ f, i = .setfademode f) ∧
    (t.extcnt ≠ s.extcnt → ∃ now, i = .tick now) ∧
    (t.nextt ≠ s.nextt → ∃ now, i = .tick now) ∧
    (t.live ≠ s.live → (∃ p c, i = .setfading p c) ∨ (∃ now, i = .tick now) ∨ ∃ p, i = .capstep p)

/-- 20 R39. No operation issues a LIVE access outside 0 to N-1, whatever pixel number its command carries. -/
def Obligations.LiveAccessesStayInRange : Prop :=
  ∀ (i : Instr) (s : State), ∃ t new, exec i s = .next t ∧ t.livePort = s.livePort ++ new ∧
    ∀ a ∈ new, a.entry < s.cfg.pixels

/-- 20 R33, R40. LIVE after an operation is LIVE before it with the operation's accesses made one after another: every
change of LIVE is a LiveWrite on the port. -/
def Obligations.LiveChangesThroughThePort : Prop :=
  ∀ (i : Instr) (s : State), ∃ t new, exec i s = .next t ∧ t.livePort = s.livePort ++ new ∧
    t.live = new.foldl replayAccess s.live

/-- 42 R109. The life of one pixel: an eligible tick on a fading pixel moves it by its leg and FADEINONLY, every other
operation moves it as the table says, and only SETFADING leads out of IDLE or from DOWN to UP. -/
def Obligations.PixelLifeFollowsItsTable : Prop :=
  ∀ (i : Instr) (s : State) (p : Nat), p < s.cfg.pixels →
    ∃ t, exec i s = .next t ∧
      (∀ now, i = .tick now → isEligible now s.nextt = true → (s.pixel p).phase = .up →
        (t.pixel p).phase = if (legStep .inc (s.targetOf p) (s.liveOf p)).2
          then (if s.fadeInOnly then .idle else .down) else .up) ∧
      (∀ now, i = .tick now → isEligible now s.nextt = true → (s.pixel p).phase = .down →
        (t.pixel p).phase = if (legStep .dec (s.targetOf p) (s.liveOf p)).2 then .idle else .down) ∧
      ((∀ now, i = .tick now → isEligible now s.nextt = true → (s.pixel p).phase = .idle) →
        (t.pixel p).phase = phaseAfter i p (s.pixel p).phase) ∧
      ((s.pixel p).phase ≠ .up → (t.pixel p).phase = .up → ∃ (q : Pix) (c : Color), i = .setfading q c ∧ q.toNat = p) ∧
      ((s.pixel p).phase = .idle → (t.pixel p).phase ≠ .idle →
        ∃ (q : Pix) (c : Color), i = .setfading q c ∧ q.toNat = p)

/-- 00 R6. N does not change: no step, of the engine or of the host, changes it. -/
def Obligations.PixelCountNeverChanges : Prop :=
  ∀ s t : State, step s = .next t → t.cfg = s.cfg

/-- 10 R25, with the canonical form of the model's spaces (log 11). Right after reset the invariant holds, for every N
in range and every content of LIVE. -/
def Obligations.InvariantHoldsAtReset : Prop :=
  (∀ (cfg : Config) (live : Memory 24), cfg.wellFormed → live.wf → live.within cfg.pixels →
    (State.resetWith cfg live).Inv) ∧ State.reset.Inv

/-- 10 R25, with the canonical form of the model's spaces (log 11). Every step keeps the invariant, whatever the host does. -/
def Obligations.EveryStepKeepsTheInvariant : Prop :=
  ∀ s t : State, s.Inv → step s = .next t → t.Inv

/-! ## The host's side of LIVE -/

/-- 20 R33, 49 R125. The host writes an existing LIVE entry and reads it back between operations: the read returns what was
written; the write changes that entry only, and no engine state. -/
def Obligations.HostWriteThenRead : Prop :=
  ∀ (s : State) (p : Nat) (c : Color) (rest : List HostMove), p < s.cfg.pixels →
    s.host = .liveWrite p c :: .liveRead p :: rest →
    ∃ t u, step s = .next t ∧ t.liveOf p = c ∧ (∀ a, a ≠ p → readMem t.live a = readMem s.live a) ∧
      t.fading = s.fading ∧ t.dir = s.dir ∧ t.target = s.target ∧ t.fadeInOnly = s.fadeInOnly ∧
      t.extcnt = s.extcnt ∧ t.nextt = s.nextt ∧
      step t = .next u ∧ u.hostRead = some c ∧ u.live = t.live

/-- 49 R125 d, e, 20 R33. Presenting LIVE and setting the brightness change no engine state and no LIVE entry. -/
def Obligations.PresentAndBrightnessChangeNothing : Prop :=
  ∀ (s : State) (m : HostMove) (rest : List HostMove), (m = .present ∨ ∃ level, m = .setBrightness level) →
    s.host = m :: rest →
    step s = .next { s with host := rest, resp := none, livePort := [], hostRead := none }

/-- 20 R39 gives LIVE no entry at or beyond N; that a host access there stops the machine is the model's own choice (log 7). -/
def Obligations.HostAccessBeyondNStops : Prop :=
  ∀ (s : State) (p : Nat) (c : Color) (rest : List HostMove), s.cfg.pixels ≤ p →
    (s.host = .liveRead p :: rest → step s = .fault (.noSuchLiveEntry p)) ∧
    (s.host = .liveWrite p c :: rest → step s = .fault (.noSuchLiveEntry p))
end

