-- ==== Sys2Proof/Laws/Memory.lean ====
section
/-! SUPPORT. The laws of a storage space: a read after a write, the canonical form, the size, and extensionality. -/

namespace Sys2Proof.Machine

variable {w : Nat}

@[simp] theorem readMem_nil (a : Nat) : readMem ([] : Memory w) a = 0 := rfl

/-- An entry below every listed index reads as 0. -/
theorem readMem_eq_zero_of_not_listed {m : Memory w} {a : Nat} (h : ∀ c ∈ m, c.1 ≠ a) : readMem m a = 0 := by
  induction m with
  | nil => rfl
  | cons c m ih =>
    have hc : a ≠ c.1 := fun e => h c (by simp) e.symm
    simp [readMem, hc, ih (fun d hd => h d (List.mem_cons_of_mem _ hd))]

theorem readMem_eraseMem_self (m : Memory w) (a : Nat) : readMem (eraseMem m a) a = 0 :=
  readMem_eq_zero_of_not_listed fun c hc => by simpa [eraseMem] using (List.mem_filter.mp hc).2

theorem readMem_eraseMem_ne (m : Memory w) {a b : Nat} (h : b ≠ a) : readMem (eraseMem m a) b = readMem m b := by
  induction m with
  | nil => rfl
  | cons c m ih =>
    obtain ⟨i, v⟩ := c
    by_cases hi : i = a
    · subst hi
      simpa [eraseMem, readMem, h] using ih
    · simp only [eraseMem] at ih
      simp [eraseMem, readMem, hi, ih]

theorem readMem_insertMem_self {m : Memory w} {a : Nat} (v : BitVec w) (h : ∀ c ∈ m, c.1 ≠ a) :
    readMem (insertMem m a v) a = v := by
  induction m with
  | nil => simp [insertMem, readMem]
  | cons c m ih =>
    obtain ⟨i, u⟩ := c
    have hi : a ≠ i := fun e => h (i, u) (by simp) e.symm
    have hm : ∀ c ∈ m, c.1 ≠ a := fun d hd => h d (List.mem_cons_of_mem _ hd)
    by_cases hlt : a < i
    · simp [insertMem, hlt, readMem]
    · simp [insertMem, hlt, readMem, hi, ih hm]

theorem readMem_insertMem_ne (m : Memory w) {a b : Nat} (v : BitVec w) (h : b ≠ a) :
    readMem (insertMem m a v) b = readMem m b := by
  induction m with
  | nil => simp [insertMem, readMem, h]
  | cons c m ih =>
    obtain ⟨i, u⟩ := c
    by_cases hlt : a < i
    · simp [insertMem, hlt, readMem, h]
    · simp [insertMem, hlt, readMem, ih]

theorem not_listed_eraseMem (m : Memory w) (a : Nat) : ∀ c ∈ eraseMem m a, c.1 ≠ a := fun c hc => by
  simpa [eraseMem] using (List.mem_filter.mp hc).2

/-- A read of the entry just written gives the value written. -/
@[simp] theorem readMem_writeMem_self (m : Memory w) (a : Nat) (v : BitVec w) : readMem (writeMem m a v) a = v := by
  unfold writeMem
  split
  · next h => rw [h, readMem_eraseMem_self]
  · exact readMem_insertMem_self v (not_listed_eraseMem m a)

/-- A write leaves every other entry alone. -/
@[simp] theorem readMem_writeMem_ne (m : Memory w) {a b : Nat} (v : BitVec w) (h : b ≠ a) :
    readMem (writeMem m a v) b = readMem m b := by
  unfold writeMem
  split
  · exact readMem_eraseMem_ne m h
  · rw [readMem_insertMem_ne _ v h, readMem_eraseMem_ne m h]

theorem readMem_writeMem (m : Memory w) (a b : Nat) (v : BitVec w) :
    readMem (writeMem m a v) b = if b = a then v else readMem m b := by
  split
  · next h => rw [h, readMem_writeMem_self]
  · next h => exact readMem_writeMem_ne m v h

/-! ## The canonical form -/

theorem mem_insertMem {m : Memory w} {a : Nat} {v : BitVec w} {c : Nat × BitVec w} :
    c ∈ insertMem m a v ↔ c = (a, v) ∨ c ∈ m := by
  induction m with
  | nil => simp [insertMem]
  | cons d m ih =>
    obtain ⟨i, u⟩ := d
    by_cases hlt : a < i
    · simp [insertMem, hlt]
    · simp only [insertMem, hlt, if_false, List.mem_cons, ih]
      tauto

theorem Memory.wf_nil : Memory.wf ([] : Memory w) := ⟨List.Pairwise.nil, by simp⟩

theorem Memory.wf_eraseMem {m : Memory w} (h : m.wf) (a : Nat) : Memory.wf (eraseMem m a) :=
  ⟨h.1.filter _, fun c hc => h.2 c (List.mem_filter.mp hc).1⟩

theorem pairwise_insertMem {m : Memory w} (h : m.Pairwise (fun a b => a.1 < b.1)) {a : Nat} {v : BitVec w}
    (hm : ∀ c ∈ m, c.1 ≠ a) : (insertMem m a v).Pairwise (fun a b => a.1 < b.1) := by
  induction m with
  | nil => simp [insertMem]
  | cons d m ih =>
    obtain ⟨i, u⟩ := d
    have hi : i ≠ a := hm (i, u) (by simp)
    obtain ⟨hhead, htail⟩ := List.pairwise_cons.mp h
    by_cases hlt : a < i
    · simp only [insertMem, hlt, if_true]
      refine List.pairwise_cons.mpr ⟨fun c hc => ?_, h⟩
      rcases List.mem_cons.mp hc with rfl | hc
      · exact hlt
      · exact Nat.lt_trans hlt (hhead c hc)
    · simp only [insertMem, hlt, if_false]
      refine List.pairwise_cons.mpr ⟨fun c hc => ?_, ih htail (fun c hc => hm c (List.mem_cons_of_mem _ hc))⟩
      rcases mem_insertMem.mp hc with rfl | hc
      · show i < a
        omega
      · exact hhead c hc

/-- A write keeps the canonical form. -/
theorem Memory.wf_writeMem {m : Memory w} (h : m.wf) (a : Nat) (v : BitVec w) : Memory.wf (writeMem m a v) := by
  unfold writeMem
  split
  · exact wf_eraseMem h a
  · next hv =>
    refine ⟨pairwise_insertMem (wf_eraseMem h a).1 (not_listed_eraseMem m a), fun c hc => ?_⟩
    rcases mem_insertMem.mp hc with rfl | hc
    · exact hv
    · exact (wf_eraseMem h a).2 c hc

/-- A write to an entry below the size keeps every listed entry below it. -/
theorem Memory.within_writeMem {m : Memory w} {size : Nat} (h : m.within size) {a : Nat} (ha : a < size)
    (v : BitVec w) : Memory.within (writeMem m a v) size := by
  unfold writeMem
  split
  · exact fun c hc => h c (List.mem_filter.mp hc).1
  · intro c hc
    rcases mem_insertMem.mp hc with rfl | hc
    · exact ha
    · exact h c (List.mem_filter.mp hc).1

/-- An entry at or above the size reads as 0. -/
theorem Memory.readMem_of_within {m : Memory w} {size a : Nat} (h : m.within size) (ha : size ≤ a) :
    readMem m a = 0 :=
  readMem_eq_zero_of_not_listed fun c hc e => by
    have := h c hc
    omega

theorem readMem_cons_of_wf {i : Nat} {u : BitVec w} {m : Memory w} (h : Memory.wf ((i, u) :: m)) (a : Nat) (ha : a ≤ i) :
    readMem m a = 0 :=
  readMem_eq_zero_of_not_listed fun c hc e => by
    have := (List.pairwise_cons.mp h.1).1 c hc
    simp only at this
    omega

theorem Memory.wf_tail {c : Nat × BitVec w} {m : Memory w} (h : Memory.wf (c :: m)) : m.wf :=
  ⟨(List.pairwise_cons.mp h.1).2, fun d hd => h.2 d (List.mem_cons_of_mem _ hd)⟩

/-- Two canonical spaces that read alike are the same data. -/
theorem Memory.ext_of_wf {m m' : Memory w} (h : m.wf) (h' : m'.wf) (e : ∀ a, readMem m a = readMem m' a) : m = m' := by
  induction m generalizing m' with
  | nil =>
    cases m' with
    | nil => rfl
    | cons d m' =>
      have hd := e d.1
      simp only [readMem, if_true] at hd
      exact absurd hd.symm (h'.2 d (by simp))
  | cons c m ih =>
    obtain ⟨i, u⟩ := c
    cases m' with
    | nil =>
      have hc := e i
      simp only [readMem, if_true] at hc
      exact absurd hc (h.2 (i, u) (by simp))
    | cons d m' =>
      obtain ⟨j, v⟩ := d
      have hu : u ≠ 0 := h.2 (i, u) (by simp)
      have hv : v ≠ 0 := h'.2 (j, v) (by simp)
      have hij : i = j := by
        rcases Nat.lt_trichotomy i j with hlt | heq | hgt
        · have hi := e i
          simp only [readMem, if_true, Nat.ne_of_lt hlt, if_false, readMem_cons_of_wf h' i (Nat.le_of_lt hlt)] at hi
          exact absurd hi hu
        · exact heq
        · have hj := e j
          simp only [readMem, if_true, Nat.ne_of_lt hgt, if_false, readMem_cons_of_wf h j (Nat.le_of_lt hgt)] at hj
          exact absurd hj.symm hv
      subst hij
      have huv : u = v := by simpa [readMem] using e i
      subst huv
      congr 1
      refine ih (wf_tail h) (wf_tail h') fun a => ?_
      by_cases ha : a = i
      · rw [ha, readMem_cons_of_wf h i (Nat.le_refl i), readMem_cons_of_wf h' i (Nat.le_refl i)]
      · simpa [readMem, ha] using e a

end Sys2Proof.Machine
end

