-- ==== Sys2Proof/Laws/Bits.lean ====
section
/-! SUPPORT. The laws of the packed bit-vectors (spec/20_memory.md R31): one pixel's bit is written and no other. -/

namespace Sys2Proof.Machine

/-- A pixel is given by its byte and its bit. -/
theorem pixel_eq_of_indices {p q : Nat} (hbyte : byteIndex p = byteIndex q) (hbit : bitIndex p = bitIndex q) : p = q := by
  simp only [byteIndex, bitIndex] at hbyte hbit
  omega

theorem bitIndex_lt (p : Nat) : bitIndex p < 8 := Nat.mod_lt _ (by decide)

/-- The byte written by `putBit`, bit by bit. -/
theorem getLsbD_maskedByte (x : Byte) (k j : Nat) (hk : k < 8) (hj : j < 8) (v : Bool) :
    ((x &&& ~~~(1#8 <<< k)) ||| ((BitVec.ofBool v).zeroExtend 8 <<< k)).getLsbD j =
      if j = k then v else x.getLsbD j := by
  have : ∀ (k j : Fin 8) (v : Bool) (x : Byte),
      ((x &&& ~~~(1#8 <<< k.val)) ||| ((BitVec.ofBool v).zeroExtend 8 <<< k.val)).getLsbD j.val =
        if j.val = k.val then v else x.getLsbD j.val := by
    intro k j v x
    fin_cases k <;> fin_cases j <;> cases v <;> simp
  exact this ⟨k, hk⟩ ⟨j, hj⟩ v x

/-- Writing pixel `p`'s bit leaves every other byte alone. -/
theorem readMem_putBit_ne (m : Memory 8) (p : Nat) (v : Bool) {a : Nat} (h : a ≠ byteIndex p) :
    readMem (putBit m p v) a = readMem m a := readMem_writeMem_ne m _ h

/-- Read after write, for one packed bit. -/
theorem getBit_putBit (m : Memory 8) (p q : Nat) (v : Bool) :
    getBit (putBit m p v) q = if q = p then v else getBit m q := by
  by_cases hbyte : byteIndex q = byteIndex p
  · have hq : getBit (putBit m p v) q = if bitIndex q = bitIndex p then v else getBit m q := by
      simp only [getBit, putBit, hbyte, readMem_writeMem_self]
      exact getLsbD_maskedByte _ _ _ (bitIndex_lt p) (bitIndex_lt q) v
    rw [hq]
    by_cases hbit : bitIndex q = bitIndex p
    · simp [pixel_eq_of_indices hbyte hbit]
    · have : q ≠ p := fun e => hbit (by rw [e])
      simp [hbit, this]
  · have : q ≠ p := fun e => hbyte (by rw [e])
    simp [getBit, readMem_putBit_ne m p v hbyte, this]

@[simp] theorem getBit_putBit_self (m : Memory 8) (p : Nat) (v : Bool) : getBit (putBit m p v) p = v := by
  simp [getBit_putBit]

@[simp] theorem getBit_putBit_ne (m : Memory 8) {p q : Nat} (v : Bool) (h : q ≠ p) :
    getBit (putBit m p v) q = getBit m q := by
  simp [getBit_putBit, h]

/-- Two spaces whose bits agree agree byte by byte. -/
theorem readMem_eq_of_getBit {m m' : Memory 8} {a : Nat} (h : ∀ j < 8, getBit m (8 * a + j) = getBit m' (8 * a + j)) :
    readMem m a = readMem m' a := by
  apply BitVec.eq_of_getLsbD_eq
  intro j hj
  have hbyte : byteIndex (8 * a + j) = a := by
    unfold byteIndex
    omega
  have hbit : bitIndex (8 * a + j) = j := by
    unfold bitIndex
    omega
  have := h j hj
  simpa [getBit, hbyte, hbit] using this

theorem Memory.wf_putBit {m : Memory 8} (h : m.wf) (p : Nat) (v : Bool) : Memory.wf (putBit m p v) :=
  wf_writeMem h _ _

/-- A pixel below `n` lives in a byte below `ceil(n/8)`. -/
theorem byteIndex_lt {p n : Nat} (h : p < n) : byteIndex p < (n + 7) / 8 := by
  unfold byteIndex
  omega

theorem Memory.within_putBit {m : Memory 8} {cfg : Config} (h : m.within cfg.bytes) {p : Nat} (hp : p < cfg.pixels)
    (v : Bool) : Memory.within (putBit m p v) cfg.bytes := within_writeMem h (byteIndex_lt hp) _

/-- A pixel whose byte is beyond the space reads as 0. -/
theorem getBit_of_within {m : Memory 8} {cfg : Config} (h : m.within cfg.bytes) {j : Nat} (hj : 8 * cfg.bytes ≤ j) :
    getBit m j = false := by
  have : cfg.bytes ≤ byteIndex j := by
    unfold byteIndex
    omega
  simp [getBit, Memory.readMem_of_within h this]

@[simp] theorem Direction.ofBit_toBit (d : Direction) : Direction.ofBit d.toBit = d := by cases d <;> rfl

@[simp] theorem Direction.toBit_ofBit (b : Bool) : (Direction.ofBit b).toBit = b := by cases b <;> rfl

end Sys2Proof.Machine
end

