-- ==== Sys2Proof/Laws/State.lean ====
section
/-! SUPPORT. What each update of the state does to each field, and to what the machine holds for a pixel. -/

namespace Sys2Proof.Machine

/-! ## State.setFading -/

@[simp] theorem State.setFading_cfg (s : State) (p : Nat) (v : Bool) : (s.setFading p v).cfg = s.cfg := rfl
@[simp] theorem State.setFading_fading (s : State) (p : Nat) (v : Bool) : (s.setFading p v).fading = putBit s.fading p v := rfl
@[simp] theorem State.setFading_dir (s : State) (p : Nat) (v : Bool) : (s.setFading p v).dir = s.dir := rfl
@[simp] theorem State.setFading_target (s : State) (p : Nat) (v : Bool) : (s.setFading p v).target = s.target := rfl
@[simp] theorem State.setFading_fadeInOnly (s : State) (p : Nat) (v : Bool) : (s.setFading p v).fadeInOnly = s.fadeInOnly := rfl
@[simp] theorem State.setFading_extcnt (s : State) (p : Nat) (v : Bool) : (s.setFading p v).extcnt = s.extcnt := rfl
@[simp] theorem State.setFading_nextt (s : State) (p : Nat) (v : Bool) : (s.setFading p v).nextt = s.nextt := rfl
@[simp] theorem State.setFading_live (s : State) (p : Nat) (v : Bool) : (s.setFading p v).live = s.live := rfl
@[simp] theorem State.setFading_resp (s : State) (p : Nat) (v : Bool) : (s.setFading p v).resp = s.resp := rfl
@[simp] theorem State.setFading_livePort (s : State) (p : Nat) (v : Bool) : (s.setFading p v).livePort = s.livePort := rfl
@[simp] theorem State.setFading_hostRead (s : State) (p : Nat) (v : Bool) : (s.setFading p v).hostRead = s.hostRead := rfl
@[simp] theorem State.setFading_host (s : State) (p : Nat) (v : Bool) : (s.setFading p v).host = s.host := rfl

/-! ## State.setDir -/

@[simp] theorem State.setDir_cfg (s : State) (p : Nat) (d : Direction) : (s.setDir p d).cfg = s.cfg := rfl
@[simp] theorem State.setDir_fading (s : State) (p : Nat) (d : Direction) : (s.setDir p d).fading = s.fading := rfl
@[simp] theorem State.setDir_dir (s : State) (p : Nat) (d : Direction) : (s.setDir p d).dir = putBit s.dir p d.toBit := rfl
@[simp] theorem State.setDir_target (s : State) (p : Nat) (d : Direction) : (s.setDir p d).target = s.target := rfl
@[simp] theorem State.setDir_fadeInOnly (s : State) (p : Nat) (d : Direction) : (s.setDir p d).fadeInOnly = s.fadeInOnly := rfl
@[simp] theorem State.setDir_extcnt (s : State) (p : Nat) (d : Direction) : (s.setDir p d).extcnt = s.extcnt := rfl
@[simp] theorem State.setDir_nextt (s : State) (p : Nat) (d : Direction) : (s.setDir p d).nextt = s.nextt := rfl
@[simp] theorem State.setDir_live (s : State) (p : Nat) (d : Direction) : (s.setDir p d).live = s.live := rfl
@[simp] theorem State.setDir_resp (s : State) (p : Nat) (d : Direction) : (s.setDir p d).resp = s.resp := rfl
@[simp] theorem State.setDir_livePort (s : State) (p : Nat) (d : Direction) : (s.setDir p d).livePort = s.livePort := rfl
@[simp] theorem State.setDir_hostRead (s : State) (p : Nat) (d : Direction) : (s.setDir p d).hostRead = s.hostRead := rfl
@[simp] theorem State.setDir_host (s : State) (p : Nat) (d : Direction) : (s.setDir p d).host = s.host := rfl

/-! ## State.setTarget -/

@[simp] theorem State.setTarget_cfg (s : State) (p : Nat) (q : Byte) : (s.setTarget p q).cfg = s.cfg := rfl
@[simp] theorem State.setTarget_fading (s : State) (p : Nat) (q : Byte) : (s.setTarget p q).fading = s.fading := rfl
@[simp] theorem State.setTarget_dir (s : State) (p : Nat) (q : Byte) : (s.setTarget p q).dir = s.dir := rfl
@[simp] theorem State.setTarget_target (s : State) (p : Nat) (q : Byte) : (s.setTarget p q).target = writeMem s.target p q := rfl
@[simp] theorem State.setTarget_fadeInOnly (s : State) (p : Nat) (q : Byte) : (s.setTarget p q).fadeInOnly = s.fadeInOnly := rfl
@[simp] theorem State.setTarget_extcnt (s : State) (p : Nat) (q : Byte) : (s.setTarget p q).extcnt = s.extcnt := rfl
@[simp] theorem State.setTarget_nextt (s : State) (p : Nat) (q : Byte) : (s.setTarget p q).nextt = s.nextt := rfl
@[simp] theorem State.setTarget_live (s : State) (p : Nat) (q : Byte) : (s.setTarget p q).live = s.live := rfl
@[simp] theorem State.setTarget_resp (s : State) (p : Nat) (q : Byte) : (s.setTarget p q).resp = s.resp := rfl
@[simp] theorem State.setTarget_livePort (s : State) (p : Nat) (q : Byte) : (s.setTarget p q).livePort = s.livePort := rfl
@[simp] theorem State.setTarget_hostRead (s : State) (p : Nat) (q : Byte) : (s.setTarget p q).hostRead = s.hostRead := rfl
@[simp] theorem State.setTarget_host (s : State) (p : Nat) (q : Byte) : (s.setTarget p q).host = s.host := rfl

/-! ## State.setLive -/

@[simp] theorem State.setLive_cfg (s : State) (p : Nat) (c : Color) : (s.setLive p c).cfg = s.cfg := rfl
@[simp] theorem State.setLive_fading (s : State) (p : Nat) (c : Color) : (s.setLive p c).fading = s.fading := rfl
@[simp] theorem State.setLive_dir (s : State) (p : Nat) (c : Color) : (s.setLive p c).dir = s.dir := rfl
@[simp] theorem State.setLive_target (s : State) (p : Nat) (c : Color) : (s.setLive p c).target = s.target := rfl
@[simp] theorem State.setLive_fadeInOnly (s : State) (p : Nat) (c : Color) : (s.setLive p c).fadeInOnly = s.fadeInOnly := rfl
@[simp] theorem State.setLive_extcnt (s : State) (p : Nat) (c : Color) : (s.setLive p c).extcnt = s.extcnt := rfl
@[simp] theorem State.setLive_nextt (s : State) (p : Nat) (c : Color) : (s.setLive p c).nextt = s.nextt := rfl
@[simp] theorem State.setLive_live (s : State) (p : Nat) (c : Color) : (s.setLive p c).live = writeMem s.live p c := rfl
@[simp] theorem State.setLive_resp (s : State) (p : Nat) (c : Color) : (s.setLive p c).resp = s.resp := rfl
@[simp] theorem State.setLive_livePort (s : State) (p : Nat) (c : Color) : (s.setLive p c).livePort = s.livePort := rfl
@[simp] theorem State.setLive_hostRead (s : State) (p : Nat) (c : Color) : (s.setLive p c).hostRead = s.hostRead := rfl
@[simp] theorem State.setLive_host (s : State) (p : Nat) (c : Color) : (s.setLive p c).host = s.host := rfl

/-! ## State.setFadeInOnly -/

@[simp] theorem State.setFadeInOnly_cfg (s : State) (f : Bool) : (s.setFadeInOnly f).cfg = s.cfg := rfl
@[simp] theorem State.setFadeInOnly_fading (s : State) (f : Bool) : (s.setFadeInOnly f).fading = s.fading := rfl
@[simp] theorem State.setFadeInOnly_dir (s : State) (f : Bool) : (s.setFadeInOnly f).dir = s.dir := rfl
@[simp] theorem State.setFadeInOnly_target (s : State) (f : Bool) : (s.setFadeInOnly f).target = s.target := rfl
@[simp] theorem State.setFadeInOnly_fadeInOnly (s : State) (f : Bool) : (s.setFadeInOnly f).fadeInOnly = f := rfl
@[simp] theorem State.setFadeInOnly_extcnt (s : State) (f : Bool) : (s.setFadeInOnly f).extcnt = s.extcnt := rfl
@[simp] theorem State.setFadeInOnly_nextt (s : State) (f : Bool) : (s.setFadeInOnly f).nextt = s.nextt := rfl
@[simp] theorem State.setFadeInOnly_live (s : State) (f : Bool) : (s.setFadeInOnly f).live = s.live := rfl
@[simp] theorem State.setFadeInOnly_resp (s : State) (f : Bool) : (s.setFadeInOnly f).resp = s.resp := rfl
@[simp] theorem State.setFadeInOnly_livePort (s : State) (f : Bool) : (s.setFadeInOnly f).livePort = s.livePort := rfl
@[simp] theorem State.setFadeInOnly_hostRead (s : State) (f : Bool) : (s.setFadeInOnly f).hostRead = s.hostRead := rfl
@[simp] theorem State.setFadeInOnly_host (s : State) (f : Bool) : (s.setFadeInOnly f).host = s.host := rfl

/-! ## State.setExtcnt -/

@[simp] theorem State.setExtcnt_cfg (s : State) (n : Count) : (s.setExtcnt n).cfg = s.cfg := rfl
@[simp] theorem State.setExtcnt_fading (s : State) (n : Count) : (s.setExtcnt n).fading = s.fading := rfl
@[simp] theorem State.setExtcnt_dir (s : State) (n : Count) : (s.setExtcnt n).dir = s.dir := rfl
@[simp] theorem State.setExtcnt_target (s : State) (n : Count) : (s.setExtcnt n).target = s.target := rfl
@[simp] theorem State.setExtcnt_fadeInOnly (s : State) (n : Count) : (s.setExtcnt n).fadeInOnly = s.fadeInOnly := rfl
@[simp] theorem State.setExtcnt_extcnt (s : State) (n : Count) : (s.setExtcnt n).extcnt = n := rfl
@[simp] theorem State.setExtcnt_nextt (s : State) (n : Count) : (s.setExtcnt n).nextt = s.nextt := rfl
@[simp] theorem State.setExtcnt_live (s : State) (n : Count) : (s.setExtcnt n).live = s.live := rfl
@[simp] theorem State.setExtcnt_resp (s : State) (n : Count) : (s.setExtcnt n).resp = s.resp := rfl
@[simp] theorem State.setExtcnt_livePort (s : State) (n : Count) : (s.setExtcnt n).livePort = s.livePort := rfl
@[simp] theorem State.setExtcnt_hostRead (s : State) (n : Count) : (s.setExtcnt n).hostRead = s.hostRead := rfl
@[simp] theorem State.setExtcnt_host (s : State) (n : Count) : (s.setExtcnt n).host = s.host := rfl

/-! ## State.setNextt -/

@[simp] theorem State.setNextt_cfg (s : State) (t : Time) : (s.setNextt t).cfg = s.cfg := rfl
@[simp] theorem State.setNextt_fading (s : State) (t : Time) : (s.setNextt t).fading = s.fading := rfl
@[simp] theorem State.setNextt_dir (s : State) (t : Time) : (s.setNextt t).dir = s.dir := rfl
@[simp] theorem State.setNextt_target (s : State) (t : Time) : (s.setNextt t).target = s.target := rfl
@[simp] theorem State.setNextt_fadeInOnly (s : State) (t : Time) : (s.setNextt t).fadeInOnly = s.fadeInOnly := rfl
@[simp] theorem State.setNextt_extcnt (s : State) (t : Time) : (s.setNextt t).extcnt = s.extcnt := rfl
@[simp] theorem State.setNextt_nextt (s : State) (t : Time) : (s.setNextt t).nextt = t := rfl
@[simp] theorem State.setNextt_live (s : State) (t : Time) : (s.setNextt t).live = s.live := rfl
@[simp] theorem State.setNextt_resp (s : State) (t : Time) : (s.setNextt t).resp = s.resp := rfl
@[simp] theorem State.setNextt_livePort (s : State) (t : Time) : (s.setNextt t).livePort = s.livePort := rfl
@[simp] theorem State.setNextt_hostRead (s : State) (t : Time) : (s.setNextt t).hostRead = s.hostRead := rfl
@[simp] theorem State.setNextt_host (s : State) (t : Time) : (s.setNextt t).host = s.host := rfl

/-! ## State.onPort -/

@[simp] theorem State.onPort_cfg (s : State) (a : LiveAccess) : (s.onPort a).cfg = s.cfg := rfl
@[simp] theorem State.onPort_fading (s : State) (a : LiveAccess) : (s.onPort a).fading = s.fading := rfl
@[simp] theorem State.onPort_dir (s : State) (a : LiveAccess) : (s.onPort a).dir = s.dir := rfl
@[simp] theorem State.onPort_target (s : State) (a : LiveAccess) : (s.onPort a).target = s.target := rfl
@[simp] theorem State.onPort_fadeInOnly (s : State) (a : LiveAccess) : (s.onPort a).fadeInOnly = s.fadeInOnly := rfl
@[simp] theorem State.onPort_extcnt (s : State) (a : LiveAccess) : (s.onPort a).extcnt = s.extcnt := rfl
@[simp] theorem State.onPort_nextt (s : State) (a : LiveAccess) : (s.onPort a).nextt = s.nextt := rfl
@[simp] theorem State.onPort_live (s : State) (a : LiveAccess) : (s.onPort a).live = s.live := rfl
@[simp] theorem State.onPort_resp (s : State) (a : LiveAccess) : (s.onPort a).resp = s.resp := rfl
@[simp] theorem State.onPort_livePort (s : State) (a : LiveAccess) : (s.onPort a).livePort = s.livePort ++ [a] := rfl
@[simp] theorem State.onPort_hostRead (s : State) (a : LiveAccess) : (s.onPort a).hostRead = s.hostRead := rfl
@[simp] theorem State.onPort_host (s : State) (a : LiveAccess) : (s.onPort a).host = s.host := rfl

/-! ## State.respond -/

@[simp] theorem State.respond_cfg (s : State) (r : Resp) : (s.respond r).cfg = s.cfg := rfl
@[simp] theorem State.respond_fading (s : State) (r : Resp) : (s.respond r).fading = s.fading := rfl
@[simp] theorem State.respond_dir (s : State) (r : Resp) : (s.respond r).dir = s.dir := rfl
@[simp] theorem State.respond_target (s : State) (r : Resp) : (s.respond r).target = s.target := rfl
@[simp] theorem State.respond_fadeInOnly (s : State) (r : Resp) : (s.respond r).fadeInOnly = s.fadeInOnly := rfl
@[simp] theorem State.respond_extcnt (s : State) (r : Resp) : (s.respond r).extcnt = s.extcnt := rfl
@[simp] theorem State.respond_nextt (s : State) (r : Resp) : (s.respond r).nextt = s.nextt := rfl
@[simp] theorem State.respond_live (s : State) (r : Resp) : (s.respond r).live = s.live := rfl
@[simp] theorem State.respond_resp (s : State) (r : Resp) : (s.respond r).resp = some r := rfl
@[simp] theorem State.respond_livePort (s : State) (r : Resp) : (s.respond r).livePort = s.livePort := rfl
@[simp] theorem State.respond_hostRead (s : State) (r : Resp) : (s.respond r).hostRead = s.hostRead := rfl
@[simp] theorem State.respond_host (s : State) (r : Resp) : (s.respond r).host = s.host := rfl

/-! ## liveWrite -/

@[simp] theorem liveWrite_cfg (s : State) (p : Nat) (c : Color) : (liveWrite s p c).cfg = s.cfg := rfl
@[simp] theorem liveWrite_fading (s : State) (p : Nat) (c : Color) : (liveWrite s p c).fading = s.fading := rfl
@[simp] theorem liveWrite_dir (s : State) (p : Nat) (c : Color) : (liveWrite s p c).dir = s.dir := rfl
@[simp] theorem liveWrite_target (s : State) (p : Nat) (c : Color) : (liveWrite s p c).target = s.target := rfl
@[simp] theorem liveWrite_fadeInOnly (s : State) (p : Nat) (c : Color) : (liveWrite s p c).fadeInOnly = s.fadeInOnly := rfl
@[simp] theorem liveWrite_extcnt (s : State) (p : Nat) (c : Color) : (liveWrite s p c).extcnt = s.extcnt := rfl
@[simp] theorem liveWrite_nextt (s : State) (p : Nat) (c : Color) : (liveWrite s p c).nextt = s.nextt := rfl
@[simp] theorem liveWrite_live (s : State) (p : Nat) (c : Color) : (liveWrite s p c).live = writeMem s.live p c := rfl
@[simp] theorem liveWrite_resp (s : State) (p : Nat) (c : Color) : (liveWrite s p c).resp = s.resp := rfl
@[simp] theorem liveWrite_livePort (s : State) (p : Nat) (c : Color) : (liveWrite s p c).livePort = s.livePort ++ [.write p c] := rfl
@[simp] theorem liveWrite_hostRead (s : State) (p : Nat) (c : Color) : (liveWrite s p c).hostRead = s.hostRead := rfl
@[simp] theorem liveWrite_host (s : State) (p : Nat) (c : Color) : (liveWrite s p c).host = s.host := rfl

/-! ## Pixels -/

@[simp] theorem State.setFading_dirOf (s : State) (p : Nat) (v : Bool) (k : Nat) : (s.setFading p v).dirOf k = s.dirOf k := rfl
@[simp] theorem State.setFading_targetOf (s : State) (p : Nat) (v : Bool) (k : Nat) : (s.setFading p v).targetOf k = s.targetOf k := rfl
@[simp] theorem State.setFading_liveOf (s : State) (p : Nat) (v : Bool) (k : Nat) : (s.setFading p v).liveOf k = s.liveOf k := rfl
@[simp] theorem State.setDir_isFading (s : State) (p : Nat) (d : Direction) (k : Nat) : (s.setDir p d).isFading k = s.isFading k := rfl
@[simp] theorem State.setDir_targetOf (s : State) (p : Nat) (d : Direction) (k : Nat) : (s.setDir p d).targetOf k = s.targetOf k := rfl
@[simp] theorem State.setDir_liveOf (s : State) (p : Nat) (d : Direction) (k : Nat) : (s.setDir p d).liveOf k = s.liveOf k := rfl
@[simp] theorem State.setTarget_isFading (s : State) (p : Nat) (q : Byte) (k : Nat) : (s.setTarget p q).isFading k = s.isFading k := rfl
@[simp] theorem State.setTarget_dirOf (s : State) (p : Nat) (q : Byte) (k : Nat) : (s.setTarget p q).dirOf k = s.dirOf k := rfl
@[simp] theorem State.setTarget_liveOf (s : State) (p : Nat) (q : Byte) (k : Nat) : (s.setTarget p q).liveOf k = s.liveOf k := rfl
@[simp] theorem State.setLive_isFading (s : State) (p : Nat) (c : Color) (k : Nat) : (s.setLive p c).isFading k = s.isFading k := rfl
@[simp] theorem State.setLive_dirOf (s : State) (p : Nat) (c : Color) (k : Nat) : (s.setLive p c).dirOf k = s.dirOf k := rfl
@[simp] theorem State.setLive_targetOf (s : State) (p : Nat) (c : Color) (k : Nat) : (s.setLive p c).targetOf k = s.targetOf k := rfl
@[simp] theorem State.setFadeInOnly_isFading (s : State) (f : Bool) (k : Nat) : (s.setFadeInOnly f).isFading k = s.isFading k := rfl
@[simp] theorem State.setFadeInOnly_dirOf (s : State) (f : Bool) (k : Nat) : (s.setFadeInOnly f).dirOf k = s.dirOf k := rfl
@[simp] theorem State.setFadeInOnly_targetOf (s : State) (f : Bool) (k : Nat) : (s.setFadeInOnly f).targetOf k = s.targetOf k := rfl
@[simp] theorem State.setFadeInOnly_liveOf (s : State) (f : Bool) (k : Nat) : (s.setFadeInOnly f).liveOf k = s.liveOf k := rfl
@[simp] theorem State.setExtcnt_isFading (s : State) (n : Count) (k : Nat) : (s.setExtcnt n).isFading k = s.isFading k := rfl
@[simp] theorem State.setExtcnt_dirOf (s : State) (n : Count) (k : Nat) : (s.setExtcnt n).dirOf k = s.dirOf k := rfl
@[simp] theorem State.setExtcnt_targetOf (s : State) (n : Count) (k : Nat) : (s.setExtcnt n).targetOf k = s.targetOf k := rfl
@[simp] theorem State.setExtcnt_liveOf (s : State) (n : Count) (k : Nat) : (s.setExtcnt n).liveOf k = s.liveOf k := rfl
@[simp] theorem State.setNextt_isFading (s : State) (t : Time) (k : Nat) : (s.setNextt t).isFading k = s.isFading k := rfl
@[simp] theorem State.setNextt_dirOf (s : State) (t : Time) (k : Nat) : (s.setNextt t).dirOf k = s.dirOf k := rfl
@[simp] theorem State.setNextt_targetOf (s : State) (t : Time) (k : Nat) : (s.setNextt t).targetOf k = s.targetOf k := rfl
@[simp] theorem State.setNextt_liveOf (s : State) (t : Time) (k : Nat) : (s.setNextt t).liveOf k = s.liveOf k := rfl
@[simp] theorem State.onPort_isFading (s : State) (a : LiveAccess) (k : Nat) : (s.onPort a).isFading k = s.isFading k := rfl
@[simp] theorem State.onPort_dirOf (s : State) (a : LiveAccess) (k : Nat) : (s.onPort a).dirOf k = s.dirOf k := rfl
@[simp] theorem State.onPort_targetOf (s : State) (a : LiveAccess) (k : Nat) : (s.onPort a).targetOf k = s.targetOf k := rfl
@[simp] theorem State.onPort_liveOf (s : State) (a : LiveAccess) (k : Nat) : (s.onPort a).liveOf k = s.liveOf k := rfl
@[simp] theorem State.respond_isFading (s : State) (r : Resp) (k : Nat) : (s.respond r).isFading k = s.isFading k := rfl
@[simp] theorem State.respond_dirOf (s : State) (r : Resp) (k : Nat) : (s.respond r).dirOf k = s.dirOf k := rfl
@[simp] theorem State.respond_targetOf (s : State) (r : Resp) (k : Nat) : (s.respond r).targetOf k = s.targetOf k := rfl
@[simp] theorem State.respond_liveOf (s : State) (r : Resp) (k : Nat) : (s.respond r).liveOf k = s.liveOf k := rfl
@[simp] theorem liveWrite_isFading (s : State) (p : Nat) (c : Color) (k : Nat) : (liveWrite s p c).isFading k = s.isFading k := rfl
@[simp] theorem liveWrite_dirOf (s : State) (p : Nat) (c : Color) (k : Nat) : (liveWrite s p c).dirOf k = s.dirOf k := rfl
@[simp] theorem liveWrite_targetOf (s : State) (p : Nat) (c : Color) (k : Nat) : (liveWrite s p c).targetOf k = s.targetOf k := rfl

@[simp] theorem State.setFading_isFading (s : State) (p : Nat) (v : Bool) (k : Nat) :
    (s.setFading p v).isFading k = if k = p then v else s.isFading k := getBit_putBit _ _ _ _

@[simp] theorem State.setDir_dirOf (s : State) (p : Nat) (d : Direction) (k : Nat) :
    (s.setDir p d).dirOf k = if k = p then d else s.dirOf k := by
  unfold State.dirOf
  rw [State.setDir_dir, getBit_putBit]
  split <;> simp

@[simp] theorem State.setTarget_targetOf (s : State) (p : Nat) (q : Byte) (k : Nat) :
    (s.setTarget p q).targetOf k = if k = p then q else s.targetOf k := readMem_writeMem _ _ _ _

@[simp] theorem State.setLive_liveOf (s : State) (p : Nat) (c : Color) (k : Nat) :
    (s.setLive p c).liveOf k = if k = p then c else s.liveOf k := readMem_writeMem _ _ _ _

@[simp] theorem liveWrite_liveOf (s : State) (p : Nat) (c : Color) (k : Nat) :
    (liveWrite s p c).liveOf k = if k = p then c else s.liveOf k := readMem_writeMem _ _ _ _

@[simp] theorem liveRead_fst (s : State) (p : Nat) : (liveRead s p).1 = s.liveOf p := rfl

@[simp] theorem liveRead_snd (s : State) (p : Nat) : (liveRead s p).2 = s.onPort (.read p) := rfl

end Sys2Proof.Machine
end

