-- ==== Sys2Proof/Laws/Datapath.lean ====
section
/-! SUPPORT. The colour datapath: channels of a packed colour, lanes of a step, and what ApplyStep does to the state. -/

namespace Sys2Proof.Machine

/-! ## Channels -/

@[simp] theorem red_rgb (r g b : Byte) : red (rgb r g b) = r := by
  apply BitVec.eq_of_getLsbD_eq
  intro i hi
  simp only [red, rgb, BitVec.getLsbD_extractLsb', BitVec.getLsbD_append, hi, decide_true, Bool.true_and]
  have h1 : ¬ (16 + i < 8) := by omega
  have h2 : ¬ (16 + i - 8 < 8) := by omega
  have h3 : 16 + i - 8 - 8 = i := by omega
  simp [h1, h2, h3]

@[simp] theorem green_rgb (r g b : Byte) : green (rgb r g b) = g := by
  apply BitVec.eq_of_getLsbD_eq
  intro i hi
  simp only [green, rgb, BitVec.getLsbD_extractLsb', BitVec.getLsbD_append, hi, decide_true, Bool.true_and]
  have h1 : ¬ (8 + i < 8) := by omega
  have h2 : 8 + i - 8 = i := by omega
  simp [h1, h2, hi]

@[simp] theorem blue_rgb (r g b : Byte) : blue (rgb r g b) = b := by
  apply BitVec.eq_of_getLsbD_eq
  intro i hi
  simp only [blue, rgb, BitVec.getLsbD_extractLsb', BitVec.getLsbD_append, hi, decide_true, Bool.true_and]
  simp [hi]

/-- A colour is its three channels. -/
@[simp] theorem rgb_channels (c : Color) : rgb (red c) (green c) (blue c) = c := by
  apply BitVec.eq_of_getLsbD_eq
  intro i hi
  simp only [red, green, blue, rgb, BitVec.getLsbD_extractLsb', BitVec.getLsbD_append]
  by_cases h1 : i < 8
  · simp [h1]
  · by_cases h2 : i - 8 < 8
    · have : 8 + (i - 8) = i := by omega
      simp [h1, h2, this]
    · have h3 : 16 + (i - 8 - 8) = i := by omega
      have h4 : i - 8 - 8 < 8 := by omega
      simp [h1, h2, h3, h4]

/-- A packed colour as a number. -/
theorem toNat_rgb (r g b : Byte) : (rgb r g b).toNat = r.toNat <<< 16 ||| g.toNat <<< 8 ||| b.toNat := by
  have h : rgb r g b = BitVec.append (BitVec.append r g) b := rfl
  rw [h]
  show ((r ++ g) ++ b).toNat = _
  rw [BitVec.toNat_append, BitVec.toNat_append, Nat.shiftLeft_or_distrib, ← Nat.shiftLeft_add]

/-- Two colours with the same channels are the same. -/
theorem color_ext {c d : Color} (hr : red c = red d) (hg : green c = green d) (hb : blue c = blue d) : c = d := by
  rw [← rgb_channels c, ← rgb_channels d, hr, hg, hb]

theorem red_expand (q : Byte) : red (expand q) = q &&& 0xE0 := red_rgb _ _ _

theorem green_expand (q : Byte) : green (expand q) = (q &&& 0x1C) <<< 3 := green_rgb _ _ _

theorem blue_expand (q : Byte) : blue (expand q) = (q &&& 0x03) <<< 6 := blue_rgb _ _ _

/-- A packed colour, bit by bit (30 R56). -/
theorem getLsbD_rgb (r g b : Byte) (i : Nat) :
    (rgb r g b).getLsbD i =
      if i < 8 then b.getLsbD i else if i < 16 then g.getLsbD (i - 8) else r.getLsbD (i - 16) := by
  simp only [rgb, BitVec.getLsbD_append]
  have h : i - 8 - 8 = i - 16 := by omega
  have h2 : ¬ i < 8 → (i - 8 < 8 ↔ i < 16) := by omega
  by_cases h1 : i < 8
  · simp [h1]
  · simp [h1, h2 h1, h]

/-- `Reduce`, bit by bit (40 R70). -/
theorem getLsbD_reduce (c : Color) (i : Nat) :
    (reduce c).getLsbD i =
      if 6 ≤ i ∧ i < 8 then c.getLsbD (16 + i)
      else if i = 3 ∨ i = 4 then c.getLsbD (11 + i)
      else if i < 2 then c.getLsbD (6 + i) else false := by
  by_cases hi : i < 8
  · have key : ∀ (i : Fin 8) (r g b : Byte),
        ((r &&& 0xC0) ||| ((g &&& 0xC0) >>> 3) ||| ((b &&& 0xC0) >>> 6) : Byte).getLsbD i.val =
          if 6 ≤ i.val then r.getLsbD i.val
          else if i.val = 3 ∨ i.val = 4 then g.getLsbD (3 + i.val)
          else if i.val < 2 then b.getLsbD (6 + i.val) else false := by
      intro i r g b
      fin_cases i <;> simp
    have hbit := key ⟨i, hi⟩ (red c) (green c) (blue c)
    simp only at hbit
    unfold reduce
    rw [hbit]
    by_cases h1 : 6 ≤ i
    · simp [h1, hi, red]
    · by_cases h2 : i = 3 ∨ i = 4
      · have e : 8 + (3 + i) = 11 + i := by omega
        have e2 : 3 + i < 8 := by omega
        simp [h1, h2, green, e, e2]
      · by_cases h3 : i < 2
        · have e2 : 6 + i < 8 := by omega
          simp [h1, h2, h3, blue, e2]
        · simp [h1, h2, h3]
  · have h2 : ¬ (i = 3 ∨ i = 4) := by omega
    have h3 : ¬ i < 2 := by omega
    simp [hi, h2, h3, BitVec.getLsbD_of_ge _ i (by omega : 8 ≤ i)]

/-- `Expand`, bit by bit (40 R71). -/
theorem getLsbD_expand (q : Byte) (i : Nat) :
    (expand q).getLsbD i =
      if 21 ≤ i ∧ i < 24 then q.getLsbD (i - 16)
      else if 13 ≤ i ∧ i < 16 then q.getLsbD (i - 11)
      else if 6 ≤ i ∧ i < 8 then q.getLsbD (i - 6) else false := by
  by_cases hi : i < 24
  · have key : ∀ (i : Fin 24) (q : Byte), (expand q).getLsbD i.val =
        if 21 ≤ i.val then q.getLsbD (i.val - 16)
        else if 13 ≤ i.val ∧ i.val < 16 then q.getLsbD (i.val - 11)
        else if 6 ≤ i.val ∧ i.val < 8 then q.getLsbD (i.val - 6) else false := by
      intro i q
      rw [expand, getLsbD_rgb]
      fin_cases i <;> simp
    have hbit := key ⟨i, hi⟩ q
    simp only at hbit
    rw [hbit]
    by_cases h1 : 21 ≤ i <;> simp [h1, hi]
  · have h1 : ¬ i < 8 := by omega
    have h2 : ¬ i < 16 := by omega
    simp [hi, h1, h2, BitVec.getLsbD_of_ge _ i (by omega : 24 ≤ i)]

/-! ## Lanes -/

@[simp] theorem red_joinLanes (r g b : Byte × Bool) : red (joinLanes r g b).1 = r.1 := red_rgb _ _ _

@[simp] theorem green_joinLanes (r g b : Byte × Bool) : green (joinLanes r g b).1 = g.1 := green_rgb _ _ _

@[simp] theorem blue_joinLanes (r g b : Byte × Bool) : blue (joinLanes r g b).1 = b.1 := blue_rgb _ _ _

@[simp] theorem joinLanes_snd (r g b : Byte × Bool) : (joinLanes r g b).2 = (r.2 && g.2 && b.2) := rfl

/-- The step's general formula gives the black special case too (40 R75). -/
theorem stepOf_eq (q : Byte) :
    stepOf q = rgb (chanStep (red (expand q))) (chanStep (green (expand q))) (chanStep (blue (expand q))) := by
  unfold stepOf
  split
  · next h => rw [h]; decide
  · rfl

@[simp] theorem red_stepOf (q : Byte) : red (stepOf q) = chanStep (red (expand q)) := by rw [stepOf_eq, red_rgb]

@[simp] theorem green_stepOf (q : Byte) : green (stepOf q) = chanStep (green (expand q)) := by rw [stepOf_eq, green_rgb]

@[simp] theorem blue_stepOf (q : Byte) : blue (stepOf q) = chanStep (blue (expand q)) := by rw [stepOf_eq, blue_rgb]

/-- A channel's step as a number. -/
theorem chanStep_toNat (x : Byte) : (chanStep x).toNat = x.toNat / 80 + 1 := by
  have := x.isLt
  have h80 : (80 : Byte).toNat = 80 := rfl
  have h1 : (1 : Byte).toNat = 1 := rfl
  simp only [chanStep, stepCount, BitVec.toNat_add, BitVec.toNat_udiv, h80, h1]
  omega

/-- One increasing lane as numbers (40 R76): neither the distance underflows nor the sum overflows. -/
theorem chanUp_toNat (t c x : Byte) :
    (chanUp t c x).1.toNat =
        (if max t.toNat c.toNat - c.toNat ≤ x.toNat then max t.toNat c.toNat else c.toNat + x.toNat) ∧
      ((chanUp t c x).2 = true ↔ max t.toNat c.toNat - c.toNat ≤ x.toNat) := by
  have ht := t.isLt
  have hc := c.isLt
  have hx := x.isLt
  have hb : (if c ≤ t then t else c).toNat = max t.toNat c.toNat := by
    split <;> rename_i h <;> rw [BitVec.le_def] at h <;> omega
  simp only [chanUp]
  generalize (if c ≤ t then t else c) = bound at hb
  have hd : (bound - c).toNat = max t.toNat c.toNat - c.toNat := by
    rw [BitVec.toNat_sub, hb]
    omega
  by_cases h : bound - c ≤ x
  · have h' := h
    rw [BitVec.le_def, hd] at h'
    simp [h, h', hb]
  · have h' := h
    rw [BitVec.le_def, hd] at h'
    have hs : (c + x).toNat = c.toNat + x.toNat := by
      rw [BitVec.toNat_add]
      omega
    have hne : c + x ≠ bound := fun e => by
      rw [← e, hs] at hb
      omega
    simp [h, h', hs, hne]

/-- One decreasing lane as numbers (40 R77): floored at 0. -/
theorem chanDown_toNat (c x : Byte) :
    (chanDown c x).1.toNat = c.toNat - x.toNat ∧ ((chanDown c x).2 = true ↔ c.toNat ≤ x.toNat) := by
  have hc := c.isLt
  have hx := x.isLt
  simp only [chanDown]
  by_cases h : x ≤ c
  · have h' := h
    rw [BitVec.le_def] at h'
    have hd : (c - x).toNat = c.toNat - x.toNat := by
      rw [BitVec.toNat_sub]
      omega
    refine ⟨by simp [h, hd], ?_⟩
    have h0 : (0 : Byte).toNat = 0 := rfl
    simp only [h, if_true, beq_iff_eq, ← BitVec.toNat_inj, hd, h0]
    omega
  · have h' := h
    rw [BitVec.le_def] at h'
    refine ⟨by simp [h]; omega, ?_⟩
    simp only [h, if_false, beq_self_eq_true, true_iff]
    omega

/-! ## One step of a leg, as numbers -/

/-- Each channel of an increasing step, as a number (40 R76). -/
theorem legStep_inc_channel (q : Byte) (c : Color) {ch : Color → Byte} (h : ch = red ∨ ch = green ∨ ch = blue) :
    (ch (legStep .inc q c).1).toNat =
      if max (ch (expand q)).toNat (ch c).toNat - (ch c).toNat ≤ (ch (expand q)).toNat / 80 + 1 then
        max (ch (expand q)).toNat (ch c).toNat
      else (ch c).toNat + ((ch (expand q)).toNat / 80 + 1) := by
  have lane : ch (legStep .inc q c).1 = (chanUp (ch (expand q)) (ch c) (chanStep (ch (expand q)))).1 := by
    rcases h with rfl | rfl | rfl <;> simp [legStep, stepUp]
  rw [lane, (chanUp_toNat _ _ _).1, chanStep_toNat]

/-- Each channel of a decreasing step, as a number (40 R77). -/
theorem legStep_dec_channel (q : Byte) (c : Color) {ch : Color → Byte} (h : ch = red ∨ ch = green ∨ ch = blue) :
    (ch (legStep .dec q c).1).toNat = (ch c).toNat - ((ch (expand q)).toNat / 80 + 1) := by
  have lane : ch (legStep .dec q c).1 = (chanDown (ch c) (chanStep (ch (expand q)))).1 := by
    rcases h with rfl | rfl | rfl <;> simp [legStep, stepDown]
  rw [lane, (chanDown_toNat _ _).1, chanStep_toNat]

/-- When an increasing leg is complete (40 R76, R78). -/
theorem legStep_inc_complete (q : Byte) (c : Color) :
    (legStep .inc q c).2 = true ↔ ∀ ch : Color → Byte, ch = red ∨ ch = green ∨ ch = blue →
      max (ch (expand q)).toNat (ch c).toNat - (ch c).toNat ≤ (ch (expand q)).toNat / 80 + 1 := by
  simp [legStep, stepUp, (chanUp_toNat _ _ _).2, chanStep_toNat, and_assoc]

/-- When a decreasing leg is complete (40 R77, R78). -/
theorem legStep_dec_complete (q : Byte) (c : Color) :
    (legStep .dec q c).2 = true ↔ ∀ ch : Color → Byte, ch = red ∨ ch = green ∨ ch = blue →
      (ch c).toNat ≤ (ch (expand q)).toNat / 80 + 1 := by
  simp [legStep, stepDown, (chanDown_toNat _ _).2, chanStep_toNat, and_assoc]

/-! ## ApplyStep -/

/-- What `applyStep` can do, whole (40 R78): `legComplete` and the new colour are those of one leg step of the colour
read; LIVE entry `p` is written, the two accesses appear on the port, and nothing else changes. -/
theorem applyStep_eq (s : State) (p : Nat) :
    applyStep s p =
      ((legStep (s.dirOf p) (s.targetOf p) (s.liveOf p)).2,
        { s with live := writeMem s.live p (legStep (s.dirOf p) (s.targetOf p) (s.liveOf p)).1
                 livePort := s.livePort ++ [.read p, .write p (legStep (s.dirOf p) (s.targetOf p) (s.liveOf p)).1] }) := by
  simp [applyStep, liveWrite, State.setLive, State.onPort, State.liveOf]

end Sys2Proof.Machine
end

