-- ==== Sys2Proof/Laws/Encoding.lean ====
section
/-! SUPPORT. The fields of a command word put together from its fields, and back (spec/30_encoding.md R51, R62). -/

namespace Sys2Proof

theorem getLsbD_cmdWord (op : BitVec 4) (pix : Pix) (data : BitVec 32) (i : Nat) :
    (cmdWord op pix data).getLsbD i =
      if i < 32 then data.getLsbD i
      else if i < 48 then pix.getLsbD (i - 32)
      else op.getLsbD (i - 48) := by
  simp only [cmdWord, BitVec.zeroExtend_eq_setWidth, BitVec.getLsbD_or, BitVec.getLsbD_shiftLeft, BitVec.getLsbD_setWidth]
  by_cases h1 : i < 32
  · have h2 : i < 48 := by omega
    have h3 : i < 52 := by omega
    simp [h1, h2, h3]
  · by_cases h2 : i < 48
    · have h3 : i < 52 := by omega
      have h4 : i - 32 < 52 := by omega
      simp [h1, h2, h3, h4, BitVec.getLsbD_of_ge data i (by omega)]
    · by_cases h3 : i < 52
      · have h4 : i - 48 < 52 := by omega
        have h5 : i - 32 < 52 := by omega
        simp [h1, h2, h3, h4, h5, BitVec.getLsbD_of_ge data i (by omega), BitVec.getLsbD_of_ge pix (i - 32) (by omega)]
      · simp [h1, h2, h3, BitVec.getLsbD_of_ge op (i - 48) (by omega)]

@[simp] theorem opField_cmdWord (op : BitVec 4) (pix : Pix) (data : BitVec 32) : opField (cmdWord op pix data) = op := by
  apply BitVec.eq_of_getLsbD_eq
  intro i hi
  have h1 : ¬ (48 + i < 32) := by omega
  have h2 : ¬ (48 + i < 48) := by omega
  have h3 : 48 + i - 48 = i := by omega
  simp [opField, getLsbD_cmdWord, h1, h3, hi]

@[simp] theorem pixField_cmdWord (op : BitVec 4) (pix : Pix) (data : BitVec 32) :
    pixField (cmdWord op pix data) = pix := by
  apply BitVec.eq_of_getLsbD_eq
  intro i hi
  have h1 : ¬ (32 + i < 32) := by omega
  have h2 : 32 + i < 48 := by omega
  have h3 : 32 + i - 32 = i := by omega
  simp [pixField, getLsbD_cmdWord, h2, h3, hi]

@[simp] theorem dataField_cmdWord (op : BitVec 4) (pix : Pix) (data : BitVec 32) :
    dataField (cmdWord op pix data) = data := by
  apply BitVec.eq_of_getLsbD_eq
  intro i hi
  simp [dataField, getLsbD_cmdWord, hi]

/-- A command word is its three fields. -/
theorem cmdWord_fields (w : Cmd) : cmdWord (opField w) (pixField w) (dataField w) = w := by
  apply BitVec.eq_of_getLsbD_eq
  intro i hi
  rw [getLsbD_cmdWord]
  split
  · next h => simp [dataField, h]
  · split
    · next h1 h2 =>
      have h3 : i - 32 < 16 := by omega
      have h4 : 32 + (i - 32) = i := by omega
      simp [pixField, h3, h4]
    · next h1 h2 =>
      have h3 : i - 48 < 4 := by omega
      have h4 : 48 + (i - 48) = i := by omega
      simp [opField, h3, h4]

/-- A command word as a number, `(op << 48) | (pix << 32) | data` (30 R62). -/
theorem toNat_cmdWord (op : BitVec 4) (pix : Pix) (data : BitVec 32) :
    BitVec.ofNat 52 (op.toNat <<< 48 ||| pix.toNat <<< 32 ||| data.toNat) = cmdWord op pix data := by
  apply BitVec.eq_of_getLsbD_eq
  intro i hi
  simp only [cmdWord, BitVec.zeroExtend_eq_setWidth, BitVec.getLsbD_ofNat, BitVec.getLsbD_or, BitVec.getLsbD_shiftLeft,
    BitVec.getLsbD_setWidth, Nat.testBit_or, Nat.testBit_shiftLeft, BitVec.testBit_toNat, hi, decide_true, Bool.true_and]
  by_cases h1 : 48 ≤ i
  · have h2 : 32 ≤ i := by omega
    have h3 : i - 48 < 52 := by omega
    have h4 : i - 32 < 52 := by omega
    have h5 : ¬ i < 48 := by omega
    have h6 : ¬ i < 32 := by omega
    simp [h1, h2, h3, h4, h5, h6]
  · by_cases h2 : 32 ≤ i
    · have h4 : i - 32 < 52 := by omega
      have h5 : i < 48 := by omega
      have h6 : ¬ i < 32 := by omega
      simp [h1, h2, h4, h5, h6]
    · have h5 : i < 48 := by omega
      have h6 : i < 32 := by omega
      simp [h1, h2, h5, h6]

/-- An operand narrower than `data` is read back from its low bits. -/
theorem extractLsb'_zeroExtend {n : Nat} (x : BitVec n) (h : n ≤ 32) : (x.zeroExtend 32).extractLsb' 0 n = x := by
  apply BitVec.eq_of_getLsbD_eq
  intro i hi
  have h2 : i < 32 := by omega
  simp [hi, h2]

theorem getLsbD_zero_ofBool (f : Bool) : ((BitVec.ofBool f).zeroExtend 32).getLsbD 0 = f := by cases f <;> rfl

end Sys2Proof
end

