-- ==== Sys2Proof/Laws/HostPort.lean ====
section
/-! SUPPORT. LIVE with accesses of the engine made one after another (spec/20_memory.md R33): the form and the size stay. -/

namespace Sys2Proof.Machine

theorem replayAccess_wf {live : Memory 24} (h : live.wf) (a : LiveAccess) : Memory.wf (replayAccess live a) := by
  cases a with
  | read p => exact h
  | write p c => exact Memory.wf_writeMem h p c

theorem replayAccess_within {live : Memory 24} {size : Nat} (h : live.within size) {p : Nat} (hp : p < size) (c : Color) :
    Memory.within (replayAccess live (.write p c)) size := Memory.within_writeMem h hp c

/-- Any number of accesses keeps the canonical form. -/
theorem replay_wf {live : Memory 24} (h : live.wf) (as : List LiveAccess) : Memory.wf (as.foldl replayAccess live) := by
  induction as generalizing live with
  | nil => exact h
  | cons a as ih => exact ih (replayAccess_wf h a)

/-- Accesses to existing entries list no other entry. -/
theorem replay_within {live : Memory 24} {size : Nat} (h : live.within size) {as : List LiveAccess}
    (hin : ∀ p c, LiveAccess.write p c ∈ as → p < size) : Memory.within (as.foldl replayAccess live) size := by
  induction as generalizing live with
  | nil => exact h
  | cons a as ih =>
    refine ih ?_ fun p c hm => hin p c (List.mem_cons_of_mem a hm)
    cases a with
    | read p => exact h
    | write p c => exact replayAccess_within h (hin p c (List.mem_cons_self ..)) c

end Sys2Proof.Machine
end

