-- ==== Sys2Proof/Laws/PerInstr.lean ====
section
/-! SUPPORT. A statement about every instruction as syntax, one lemma per constructor: the encoded word carries the
instruction's opcode, and no bit that the opcode does not use (spec/30_encoding.md R53, R62). -/

namespace Sys2Proof.Laws.OpcodeField

/-- The word of `i` has `i`'s opcode in bits 51:48 and 0 in every ignored field. -/
def Statement (i : Instr) : Prop := opField (encode i) = opcodeOf i ∧ encode i &&& ~~~usedMask (opcodeOf i) = 0

/-- A word with nothing in `pix` and `data` has no ignored bit set. -/
theorem plain (op : BitVec 4) : cmdWord op 0 0 &&& ~~~usedMask op = 0 := by
  revert op
  decide

/-- A word with an operand in `pix` only has no ignored bit set, if its opcode uses `pix`. -/
theorem onlyPix (op : BitVec 4) (p : Pix) (h : usedMask op = 0xFFFFF00000000) : cmdWord op p 0 &&& ~~~usedMask op = 0 := by
  rw [h]
  apply BitVec.eq_of_getLsbD_eq
  intro i hi
  rw [BitVec.getLsbD_and, getLsbD_cmdWord]
  by_cases h1 : i < 32
  · simp [h1]
  · have : ∀ i : Fin 52, ¬ i.val < 32 → (~~~(0xFFFFF00000000 : Cmd)).getLsbD i.val = false := by decide
    have := this ⟨i, hi⟩ h1
    rw [this, Bool.and_false]
    simp

/-- A word with a low operand of `n` bits in `data` only has no ignored bit set, if its opcode uses those bits. -/
theorem onlyData {n : Nat} (op : BitVec 4) (pix : Pix) (x : BitVec n)
    (hdata : ∀ i : Fin 52, i.val < n → (~~~usedMask op).getLsbD i.val = false)
    (hop : ∀ i : Fin 52, ¬ i.val < 48 → (~~~usedMask op).getLsbD i.val = false)
    (hpix : pix = 0 ∨ ∀ i : Fin 52, ¬ i.val < 32 → (~~~usedMask op).getLsbD i.val = false) :
    cmdWord op pix (x.zeroExtend 32) &&& ~~~usedMask op = 0 := by
  apply BitVec.eq_of_getLsbD_eq
  intro i hi
  rw [BitVec.getLsbD_and, getLsbD_cmdWord]
  by_cases h1 : i < 32
  · by_cases h2 : i < n
    · simp [hdata ⟨i, hi⟩ h2]
    · simp [h1, BitVec.getLsbD_of_ge x i (by omega)]
  · by_cases h2 : i < 48
    · rcases hpix with rfl | hpix
      · simp [h1, h2]
      · simp [hpix ⟨i, hi⟩ h1]
    · simp [hop ⟨i, hi⟩ h2]

theorem nop : Statement .nop := ⟨opField_cmdWord _ _ _, plain _⟩
theorem tick (now : Time) : Statement (.tick now) :=
  ⟨opField_cmdWord _ _ _, by
    have := onlyData 0x1 0 now (by decide) (by decide) (.inl rfl)
    simpa [encode, opcodeOf] using this⟩
theorem setfading (p : Pix) (color : Color) : Statement (.setfading p color) :=
  ⟨opField_cmdWord _ _ _, onlyData 0x2 p color (by decide) (by decide) (.inr (by decide))⟩
theorem stopfading (p : Pix) : Statement (.stopfading p) := ⟨opField_cmdWord _ _ _, onlyPix _ _ rfl⟩
theorem freset : Statement .freset := ⟨opField_cmdWord _ _ _, plain _⟩
theorem setfademode (f : Bool) : Statement (.setfademode f) :=
  ⟨opField_cmdWord _ _ _, onlyData 0x5 0 (BitVec.ofBool f) (by decide) (by decide) (.inl rfl)⟩
theorem countfading : Statement .countfading := ⟨opField_cmdWord _ _ _, plain _⟩
theorem anyfading : Statement .anyfading := ⟨opField_cmdWord _ _ _, plain _⟩
theorem extinguished : Statement .extinguished := ⟨opField_cmdWord _ _ _, plain _⟩
theorem isfading (p : Pix) : Statement (.isfading p) := ⟨opField_cmdWord _ _ _, onlyPix _ _ rfl⟩
theorem gettarget (p : Pix) : Statement (.gettarget p) := ⟨opField_cmdWord _ _ _, onlyPix _ _ rfl⟩
theorem capstep (p : Pix) : Statement (.capstep p) := ⟨opField_cmdWord _ _ _, onlyPix _ _ rfl⟩
theorem reduce (color : Color) : Statement (.reduce color) :=
  ⟨opField_cmdWord _ _ _, onlyData 0xC 0 color (by decide) (by decide) (.inl rfl)⟩
theorem expand (q : Byte) : Statement (.expand q) :=
  ⟨opField_cmdWord _ _ _, onlyData 0xD 0 q (by decide) (by decide) (.inl rfl)⟩
theorem reservedE : Statement .reservedE := ⟨opField_cmdWord _ _ _, plain _⟩
theorem reservedF : Statement .reservedF := ⟨opField_cmdWord _ _ _, plain _⟩

end Sys2Proof.Laws.OpcodeField
end

