-- ==== Sys2Proof/Laws/Responses.lean ====
section
/-! SUPPORT. The response layouts (spec/30_encoding.md R55), the eligibility of a tick (spec/42_tick.md R101), and the
pixel operand (spec/41_fade_control.md R90, R91). -/

namespace Sys2Proof.Machine

/-- TICK's response, bit by bit (30 R55). -/
theorem getLsbD_tickResp (changed eligible : Bool) (ext : Count) (i : Nat) :
    (tickResp changed eligible ext).getLsbD i =
      if i = 0 then changed else if i = 1 then eligible else if 8 ≤ i ∧ i < 17 then ext.getLsbD (i - 8) else false := by
  unfold tickResp
  simp only [BitVec.zeroExtend_eq_setWidth, BitVec.getLsbD_or, BitVec.getLsbD_shiftLeft, BitVec.getLsbD_setWidth,
    BitVec.getLsbD_ofBool]
  by_cases h0 : i = 0
  · subst h0; simp
  · by_cases h1 : i = 1
    · subst h1; simp
    · have h2 : i - 1 ≠ 0 := by omega
      by_cases h3 : 8 ≤ i
      · by_cases h4 : i < 17
        · have h5 : i < 32 := by omega
          have h6 : i - 8 < 32 := by omega
          have h7 : ¬ i < 8 := by omega
          simp [h0, h1, h2, h3, h4, h5, h6, h7]
        · simp [h0, h1, h2, h4, BitVec.getLsbD_of_ge ext (i - 8) (by omega)]
      · have h7 : i < 8 := by omega
        simp [h0, h1, h2, h3, h7]

/-- The count field of TICK's response. -/
theorem extractLsb'_tickResp (changed eligible : Bool) (ext : Count) :
    (tickResp changed eligible ext).extractLsb' 8 9 = ext := by
  apply BitVec.eq_of_getLsbD_eq
  intro i hi
  rw [BitVec.getLsbD_extractLsb', getLsbD_tickResp]
  have h2 : 8 + i ≠ 1 := by omega
  have h3 : 8 ≤ 8 + i ∧ 8 + i < 17 := by omega
  have h4 : 8 + i - 8 = i := by omega
  simp [hi, h2, h3, h4]

/-- Eligibility on numbers (42 R101). -/
theorem isEligible_iff (now nextt : Time) :
    isEligible now nextt = true ↔ (now.toNat + 2 ^ 32 - nextt.toNat) % 2 ^ 32 < 2 ^ 31 := by
  have := now.isLt
  have := nextt.isLt
  simp only [isEligible, decide_eq_true_eq, BitVec.toNat_sub]
  omega

@[simp] theorem pixOK_iff (s : State) (p : Pix) : pixOK s p = true ↔ p.toNat < s.cfg.pixels := by simp [pixOK]

/-- An existing pixel: the operation goes on (41 R90). -/
theorem onPixel_of_lt {s : State} {p : Pix} (h : p.toNat < s.cfg.pixels) (f : Nat → State) :
    onPixel s p f = f p.toNat := by simp [onPixel, h]

/-- A pixel number out of range: the operation is dropped (41 R91). -/
theorem onPixel_of_ge {s : State} {p : Pix} (h : s.cfg.pixels ≤ p.toNat) (f : Nat → State) :
    onPixel s p f = s.respond 0 := by simp [onPixel, Nat.not_lt.mpr h]

end Sys2Proof.Machine
end

