-- ==== Sys2Proof/Laws/Scan.lean ====
section
/-! SUPPORT. The scans over pixels: induction, and what FRESET's, the counts' and the tick's scans do, pixel by pixel. -/

namespace Sys2Proof.Machine

/-- Induction over a scan: what holds before pixel 0, and is carried from `p` to `p + 1` by the visit of `p`, holds at the end. -/
theorem forPixels_induction {α : Type} {f : Nat → α → α} {a : α} {n : Nat} (motive : Nat → α → Prop)
    (start : motive 0 a) (visit : ∀ p k, p < n → motive p k → motive (p + 1) (f p k)) :
    motive n (forPixels n f a) := by
  induction n with
  | zero => exact start
  | succ n ih => exact visit n _ (Nat.lt_succ_self n) (ih fun p k hp => visit p k (Nat.lt_succ_of_lt hp))

/-- A scan visits pixel 0 first and in ascending order (42 R104). -/
theorem forPixels_eq_foldl {α : Type} (n : Nat) (f : Nat → α → α) (a : α) :
    forPixels n f a = (List.range n).foldl (fun k p => f p k) a := by
  induction n with
  | zero => rfl
  | succ n ih => simp [forPixels, ih, List.range_succ]

/-- The count of a scan is the length of a filtered range. -/
theorem forPixels_count (n : Nat) (f : Nat → Bool) :
    forPixels n (fun p k => if f p then k + 1 else k) 0 = ((List.range n).filter f).length := by
  induction n with
  | zero => rfl
  | succ n ih =>
    simp only [forPixels, ih, List.range_succ, List.filter_append, List.length_append]
    cases h : f n <;> simp [h]

theorem forPixels_or (n : Nat) (f : Nat → Bool) :
    forPixels n (fun p b => b || f p) false = (List.range n).any f := by
  induction n with
  | zero => rfl
  | succ n ih => simp [forPixels, ih, List.range_succ]

theorem countFading_eq (s : State) : countFading s = s.countPixels s.isFading := forPixels_count _ _

theorem anyFading_eq (s : State) : anyFading s = (List.range s.cfg.pixels).any s.isFading := forPixels_or _ _

theorem State.countPixels_le (s : State) (f : Nat → Bool) : s.countPixels f ≤ s.cfg.pixels := by
  have := List.length_filter_le f (List.range s.cfg.pixels)
  simpa [State.countPixels] using this

/-! ## FRESET's scan -/

/-- The scan of FRESET: it writes DIR only, and gives each visited fading pixel the direction DEC (41 R95). -/
theorem turnDown_scan (s : State) (n : Nat) :
    ∃ d, forPixels n turnDown s = { s with dir := d } ∧
      (∀ p, getBit d p = if p < n ∧ s.isFading p then false else getBit s.dir p) ∧
      (s.dir.wf → d.wf) ∧ (n ≤ s.cfg.pixels → s.dir.within s.cfg.bytes → d.within s.cfg.bytes) := by
  induction n with
  | zero => exact ⟨s.dir, rfl, by simp, id, fun _ => id⟩
  | succ n ih =>
    obtain ⟨d, he, hbit, hwf, hin⟩ := ih
    have hsame : State.isFading { s with dir := d } n = s.isFading n := rfl
    by_cases hf : s.isFading n = true
    · refine ⟨putBit d n false, ?_, fun p => ?_, fun h => Memory.wf_putBit (hwf h) _ _, fun hn h => ?_⟩
      · simp [forPixels, he, turnDown, hsame, hf, State.setDir, Direction.toBit]
      · rw [getBit_putBit, hbit]
        by_cases hp : p = n
        · simp [hp, hf]
        · have : p < n + 1 ↔ p < n := by omega
          simp [hp, this]
      · exact Memory.within_putBit (hin (by omega) h) (by omega) _
    · refine ⟨d, ?_, fun p => ?_, hwf, fun hn => hin (by omega)⟩
      · simp [forPixels, he, turnDown, hsame, hf]
      · rw [hbit]
        by_cases hp : p = n
        · simp [hp, hf]
        · have : p < n + 1 ↔ p < n := by omega
          simp [this]

/-! ## The tick's scan -/

/-- Whether an eligible tick extinguishes this pixel (42 R106). -/
def Pixel.goesOut (fadeInOnly : Bool) (x : Pixel) : Bool := x.fading && !(x.ticked fadeInOnly).fading

/-- The accesses an eligible tick makes for this pixel (40 R78, 42 R104, R105). -/
def Pixel.accesses (p : Nat) (x : Pixel) : List LiveAccess :=
  if x.fading then [.read p, .write p (legStep x.dir x.target x.live).1] else []

theorem State.pixel_eq {s t : State} {p : Nat} (hf : t.isFading p = s.isFading p) (hd : t.dirOf p = s.dirOf p)
    (ht : t.targetOf p = s.targetOf p) (hl : t.liveOf p = s.liveOf p) : t.pixel p = s.pixel p := by
  simp [State.pixel, hf, hd, ht, hl]

/-- What a visit leaves of a state beside FADING, DIR, LIVE, EXTCNT and the port. -/
structure TickFrame (s t : State) : Prop where
  cfg : t.cfg = s.cfg
  target : t.target = s.target
  fadeInOnly : t.fadeInOnly = s.fadeInOnly
  nextt : t.nextt = s.nextt
  resp : t.resp = s.resp
  hostRead : t.hostRead = s.hostRead
  host : t.host = s.host

theorem TickFrame.trans {s t u : State} (h : TickFrame s t) (h' : TickFrame t u) : TickFrame s u :=
  ⟨h'.cfg.trans h.cfg, h'.target.trans h.target, h'.fadeInOnly.trans h.fadeInOnly, h'.nextt.trans h.nextt,
    h'.resp.trans h.resp, h'.hostRead.trans h.hostRead, h'.host.trans h.host⟩

/-- The spaces stay canonical and within their sizes. -/
structure SpacesOK (s : State) : Prop where
  fading : s.fading.wf
  dir : s.dir.wf
  live : s.live.wf
  fadingIn : s.fading.within s.cfg.bytes
  dirIn : s.dir.within s.cfg.bytes
  liveIn : s.live.within s.cfg.pixels

/-- What the visit of pixel `p` can do, whole. -/
theorem visitPixel_spec (p : Nat) (c : Bool) (s : State) :
    let k := visitPixel p (c, s)
    k.1 = (c || s.isFading p) ∧
      TickFrame s k.2 ∧
      (∀ q, k.2.pixel q = if q = p then (s.pixel p).ticked s.fadeInOnly else s.pixel q) ∧
      k.2.extcnt = s.extcnt + (if (s.pixel p).goesOut s.fadeInOnly then 1 else 0) ∧
      k.2.livePort = s.livePort ++ (s.pixel p).accesses p ∧
      (p < s.cfg.pixels → SpacesOK s → SpacesOK k.2) := by
  by_cases hf : s.isFading p = true
  · -- the pixel is fading: one ApplyStep, then the leg's end if it is complete
    obtain ⟨col, leg, hleg⟩ : ∃ col leg, legStep (s.dirOf p) (s.targetOf p) (s.liveOf p) = (col, leg) := ⟨_, _, rfl⟩
    have happly : applyStep s p = (leg, (s.setLive p col).onPort (.read p) |>.onPort (.write p col)) := by
      rw [applyStep_eq, hleg]
      simp [State.setLive, State.onPort]
    have hpix : s.pixel p = ⟨true, s.dirOf p, s.targetOf p, s.liveOf p⟩ := by simp [State.pixel, hf]
    cases leg with
    | false =>
      have hv : visitPixel p (c, s) = (true, (s.setLive p col).onPort (.read p) |>.onPort (.write p col)) := by
        simp [visitPixel, hf, happly]
      rw [hv, hpix]
      refine ⟨by simp [hf], ⟨rfl, rfl, rfl, rfl, rfl, rfl, rfl⟩, fun q => ?_, ?_, ?_, fun hp h => ?_⟩
      · by_cases hq : q = p
        · subst hq; simp [State.pixel, Pixel.ticked, hf, hleg]
        · simp [State.pixel, hq]
      · simp [Pixel.goesOut, Pixel.ticked, hleg]
      · simp [Pixel.accesses, hleg]
      · exact ⟨h.fading, h.dir, Memory.wf_writeMem h.live _ _, h.fadingIn, h.dirIn, Memory.within_writeMem h.liveIn hp _⟩
    | true =>
      have hd : ((s.setLive p col).onPort (.read p) |>.onPort (.write p col)).dirOf p = s.dirOf p := rfl
      have hfi : ((s.setLive p col).onPort (.read p) |>.onPort (.write p col)).fadeInOnly = s.fadeInOnly := rfl
      have hv : visitPixel p (c, s) =
          (true, finishLeg ((s.setLive p col).onPort (.read p) |>.onPort (.write p col)) p) := by
        simp [visitPixel, hf, happly]
      rw [hv, hpix]
      have hspace : p < s.cfg.pixels → SpacesOK s →
          SpacesOK ((s.setLive p col).onPort (.read p) |>.onPort (.write p col)) := fun hp h =>
        ⟨h.fading, h.dir, Memory.wf_writeMem h.live _ _, h.fadingIn, h.dirIn, Memory.within_writeMem h.liveIn hp _⟩
      cases hdir : s.dirOf p with
      | dec =>
        rw [hdir] at hleg
        simp only [finishLeg, hd, hdir]
        refine ⟨by simp [hf], ⟨rfl, rfl, rfl, rfl, rfl, rfl, rfl⟩, fun q => ?_, ?_, ?_, fun hp h => ?_⟩
        · by_cases hq : q = p
          · subst hq; simp [State.pixel, Pixel.ticked, extinguish, hleg, hdir]
          · simp [State.pixel, extinguish, hq]
        · simp [Pixel.goesOut, Pixel.ticked, extinguish, hleg]
        · simp [Pixel.accesses, extinguish, hleg]
        · have h' := hspace hp h
          exact ⟨Memory.wf_putBit h'.fading _ _, h'.dir, h'.live, Memory.within_putBit h'.fadingIn hp _, h'.dirIn, h'.liveIn⟩
      | inc =>
        rw [hdir] at hleg
        cases hfio : s.fadeInOnly with
        | true =>
          simp only [finishLeg, hd, hdir, hfi, hfio, if_true]
          refine ⟨by simp [hf], ⟨rfl, rfl, rfl, rfl, rfl, rfl, rfl⟩, fun q => ?_, ?_, ?_, fun hp h => ?_⟩
          · by_cases hq : q = p
            · subst hq; simp [State.pixel, Pixel.ticked, extinguish, hleg, hdir]
            · simp [State.pixel, extinguish, hq]
          · simp [Pixel.goesOut, Pixel.ticked, extinguish, hleg]
          · simp [Pixel.accesses, extinguish, hleg]
          · have h' := hspace hp h
            exact ⟨Memory.wf_putBit h'.fading _ _, h'.dir, h'.live, Memory.within_putBit h'.fadingIn hp _, h'.dirIn,
              h'.liveIn⟩
        | false =>
          simp only [finishLeg, hd, hdir, hfi, hfio]
          refine ⟨by simp [hf], ⟨rfl, rfl, by simp, rfl, rfl, rfl, rfl⟩, fun q => ?_, ?_, ?_, fun hp h => ?_⟩
          · by_cases hq : q = p
            · subst hq; simp [State.pixel, Pixel.ticked, hleg, hf]
            · simp [State.pixel, hq]
          · simp [Pixel.goesOut, Pixel.ticked, hleg]
          · simp [Pixel.accesses, hleg]
          · have h' := hspace hp h
            exact ⟨h'.fading, Memory.wf_putBit h'.dir _ _, h'.live, h'.fadingIn, Memory.within_putBit h'.dirIn hp _,
              h'.liveIn⟩
  · -- the pixel is not fading: skipped
    have hf' : s.isFading p = false := by simpa using hf
    have hv : visitPixel p (c, s) = (c, s) := by simp [visitPixel, hf']
    have hpix : (s.pixel p).fading = false := hf'
    rw [hv]
    refine ⟨by simp [hf'], ⟨rfl, rfl, rfl, rfl, rfl, rfl, rfl⟩, fun q => ?_, ?_, ?_, fun _ h => h⟩
    · by_cases hq : q = p
      · subst hq; simp [Pixel.ticked, hpix]
      · simp [hq]
    · simp [Pixel.goesOut, hpix]
    · simp [Pixel.accesses, hpix]

/-- What the tick's scan of the first `n` pixels can do, whole (42 R104 to R107, R111). -/
theorem visitPixel_scan (s : State) (c : Bool) (n : Nat) :
    let k := forPixels n visitPixel (c, s)
    k.1 = (c || (List.range n).any s.isFading) ∧
      TickFrame s k.2 ∧
      (∀ q, k.2.pixel q = if q < n then (s.pixel q).ticked s.fadeInOnly else s.pixel q) ∧
      k.2.extcnt = s.extcnt +
        BitVec.ofNat 9 ((List.range n).filter fun q => (s.pixel q).goesOut s.fadeInOnly).length ∧
      k.2.livePort = s.livePort ++ (List.range n).flatMap (fun q => (s.pixel q).accesses q) ∧
      (n ≤ s.cfg.pixels → SpacesOK s → SpacesOK k.2) := by
  induction n with
  | zero => exact ⟨by simp [forPixels], ⟨rfl, rfl, rfl, rfl, rfl, rfl, rfl⟩, by simp [forPixels], by simp [forPixels],
      by simp [forPixels], fun _ h => h⟩
  | succ n ih =>
    simp only [forPixels]
    obtain ⟨hc, hframe, hpix, hext, hport, hok⟩ := ih
    generalize forPixels n visitPixel (c, s) = k at hc hframe hpix hext hport hok
    obtain ⟨c', t⟩ := k
    simp only at hc hframe hpix hext hport hok
    obtain ⟨vc, vframe, vpix, vext, vport, vok⟩ := visitPixel_spec n c' t
    have hn : t.pixel n = s.pixel n := by simp [hpix n]
    have hfn : t.isFading n = s.isFading n := congrArg Pixel.fading hn
    rw [hn, hframe.fadeInOnly] at vpix vext
    rw [hn] at vport
    refine ⟨?_, hframe.trans vframe, fun q => ?_, ?_, ?_, fun hle h => ?_⟩
    · rw [vc, hc, hfn]
      simp [List.range_succ, Bool.or_assoc]
    · rw [vpix q]
      by_cases hq : q = n
      · simp [hq]
      · have : q < n + 1 ↔ q < n := by omega
        simp [hq, hpix q, this]
    · rw [vext, hext, BitVec.add_assoc]
      congr 1
      rw [List.range_succ, List.filter_append, List.length_append, BitVec.ofNat_add]
      congr 1
      cases hgo : (s.pixel n).goesOut s.fadeInOnly <;> simp [hgo]
    · rw [vport, hport]
      simp [List.range_succ]
    · exact vok (by rw [hframe.cfg]; omega) (hok (by omega) h)

/-- What the whole scan of an eligible tick can do, from the state the tick begins in (42 R100, R103 to R107). -/
theorem scanPixels_beginTick (s : State) (now : Time) :
    let k := scanPixels (beginTick now s)
    k.1 = (List.range s.cfg.pixels).any s.isFading ∧
      TickFrame (beginTick now s) k.2 ∧
      (∀ q, k.2.pixel q = if q < s.cfg.pixels then (s.pixel q).ticked s.fadeInOnly else s.pixel q) ∧
      k.2.extcnt = BitVec.ofNat 9 (s.countPixels fun q => (s.pixel q).goesOut s.fadeInOnly) ∧
      k.2.livePort = s.livePort ++ (List.range s.cfg.pixels).flatMap (fun q => (s.pixel q).accesses q) ∧
      (SpacesOK s → SpacesOK k.2) := by
  obtain ⟨hc, hframe, hpix, hext, hport, hok⟩ := visitPixel_scan (beginTick now s) false (beginTick now s).cfg.pixels
  refine ⟨hc, hframe, hpix, ?_, hport, fun h => hok (Nat.le_refl _) ⟨h.fading, h.dir, h.live, h.fadingIn, h.dirIn, h.liveIn⟩⟩
  exact hext.trans (BitVec.zero_add _)

/-- What an eligible tick answers, whole (42 R100, R108). -/
theorem exec_tick_eligible {s : State} {now : Time} (h : isEligible now s.nextt = true) :
    exec (.tick now) s = .next ((scanPixels (beginTick now s)).2.respond
      (tickResp (scanPixels (beginTick now s)).1 true (scanPixels (beginTick now s)).2.extcnt)) := by
  simp [exec, execTick, h]

/-- What an ineligible tick answers, whole (42 R102). -/
theorem exec_tick_ineligible {s : State} {now : Time} (h : isEligible now s.nextt = false) :
    exec (.tick now) s = .next (s.respond (tickResp false false s.extcnt)) := by
  simp [exec, execTick, h]

end Sys2Proof.Machine
end

