-- ==== Sys2Proof/Tests/Slice0.lean ====
section
/-! SUPPORT. Tests: expected values from the tables of spec/95_test_vectors.md and spec/30_encoding.md R62, the ill-formed
terms, and for each claim with hypotheses a state and operands that meet them together. -/

namespace Sys2Proof.Tests

open Sys2Proof.Machine

/-! ## Helpers -/

/-- The next state, if the outcome is one. -/
def next? (o : Host.Outcome State Fault Refusal) : Option State :=
  match o with
  | .next t => some t
  | .fault _ => none
  | .refused _ => none

/-- The fault, if the outcome is one. -/
def fault? (o : Host.Outcome State Fault Refusal) : Option Fault :=
  match o with
  | .next _ => none
  | .fault r => some r
  | .refused _ => none

/-- A strip of `n` pixels right after reset, with the listed live colours. -/
def strip (n : Nat) (live : Memory 24) : State := State.resetWith ⟨n⟩ live

/-- The state after the command word `w`. -/
def after (w : Cmd) (s : State) : Option State := next? (step { s with host := [.command w] })

/-- `g` of the state after the command word `w`. -/
def seen {α : Type} (w : Cmd) (s : State) (g : State → α) : Option α := (after w s).map g

/-! ## Ill-formed terms, one for each check -/

theorem test_config_bounds :
    (⟨1⟩ : Config).wellFormed ∧ (⟨256⟩ : Config).wellFormed ∧ ¬ (⟨0⟩ : Config).wellFormed ∧
      ¬ (⟨257⟩ : Config).wellFormed := by decide

theorem test_lines_out_of_range :
    [Asm.tick 0x100000000, .performFade 0x100000000, .setfading 0x10000 0, .setfading 0 0x1000000,
      .aliasSetFading 0x10000 0, .aliasSetFading 0 0x1000000, .stopfading 0x10000, .aliasStopFading 0x10000,
      .isfading 0x10000, .gettarget 0x10000, .capstep 0x10000, .capColorValue 0x10000].all
        (fun l => !l.wellFormed && (assemble l).isNone) = true := by decide

theorem test_more_lines_out_of_range :
    [Asm.setfademode 2, .aliasSetFadeMode 2, .reduce 0x1000000, .reduceColor 0x100 0 0, .reduceColor 0 0x100 0,
      .reduceColor 0 0 0x100, .expand 0x100, .expandColor 0x100, .word (2 ^ 52)].all
        (fun l => !l.wellFormed && (assemble l).isNone) = true := by decide

theorem test_lines_at_the_edge :
    [Asm.tick 0xFFFFFFFF, .setfading 0xFFFF 0xFFFFFF, .stopfading 0xFFFF, .setfademode 1, .reduce 0xFFFFFF,
      .reduceColor 0xFF 0xFF 0xFF, .expand 0xFF, .word (2 ^ 52 - 1)].all (fun l => (assemble l).isSome) = true := by
  decide

theorem test_number_wider_than_the_port :
    decodeTableWord 56 (2 ^ 52) = none ∧ decodeTableWord 52 0xF0009FFFFFFFF = some .reservedF := by decide

/-! ## Decoding, words of 30 R62 and 95 section 2 -/

theorem test_decode_control :
    decodeTableWord 56 0x2000300FF0000 = some (.setfading 3 0xFF0000) ∧
      decodeTableWord 56 0x20005AA00FF00 = some (.setfading 5 0x00FF00) ∧
      decodeTableWord 56 0x3000F00000000 = some (.stopfading 15) ∧
      decodeTableWord 56 0x4000000000000 = some .freset ∧
      decodeTableWord 56 0x50000FFFFFFFE = some (.setfademode false) ∧
      decodeTableWord 56 0x50000FFFFFFFF = some (.setfademode true) := by decide

theorem test_decode_tick : decodeTableWord 56 0x10000FFFFFFF8 = some (.tick 0xFFFFFFF8) := by decide

theorem test_decode_queries :
    decodeTableWord 56 0x6FFFFFFFFFFFF = some .countfading ∧ decodeTableWord 56 0x7000000000000 = some .anyfading ∧
      decodeTableWord 56 0x8000000000000 = some .extinguished ∧
      decodeTableWord 56 0x9000900000000 = some (.isfading 9) ∧
      decodeTableWord 56 0xA00C800000000 = some (.gettarget 200) := by decide

theorem test_decode_colour :
    decodeTableWord 56 0xB000A00000000 = some (.capstep 10) ∧
      decodeTableWord 56 0xC0000FFABCDEF = some (.reduce 0xABCDEF) ∧
      decodeTableWord 56 0xD0000FFFFFFA5 = some (.expand 0xA5) := by decide

theorem test_decode_reserved :
    decodeTableWord 56 0x00009FFFFFFFF = some .nop ∧ decodeTableWord 56 0xE000912345678 = some .reservedE ∧
      decodeTableWord 56 0xF0009FFFFFFFF = some .reservedF := by decide

/-! ## The first step after reset runs the word placed there -/

theorem test_first_step_tick :
    (next? (step (State.reset.withFetchWord 56 0x100000000000A))).map (fun t => (t.resp, t.nextt)) =
      some (some 2, 0x14) := by decide

theorem test_first_step_freset :
    (next? (step (State.reset.withFetchWord 56 0x4000000000000))).map (fun t => t.resp) = some (some 0) := by decide

/-! ## One step of each instruction -/

/-- A strip in mid-animation: N = 12, pixels 3 and 9 fading, both up, pixel 9 one step from its target. -/
def busy : State :=
  { strip 12 [(3, 0x060000), (5, 0x777777), (9, 0x00BE7E)] with
    fading := [(0, 0x08), (1, 0x02)], dir := [(0, 0x08), (1, 0x02)], target := [(3, 0xC0), (5, 0x49), (9, 0x1A)]
    extcnt := 7, nextt := 0xFFFFFFFA }

/-- 95 2.3: NOP with junk fields. -/
theorem test_nop : after 0x00009FFFFFFFF busy = some { busy with resp := some 0 } := by decide

/-- 95 2.4: 9 ms late across the wrap. -/
theorem test_tick_across_the_wrap :
    seen 0x1000000000003 { strip 1 [] with nextt := 0xFFFFFFFA } (fun t => (t.resp, t.nextt)) =
      some (some 2, 0x0000000D) := by decide

/-- 95 2.6, black target, fade-in-only, TICK 0: extinguished at once, the direction stale. -/
theorem test_tick_extinguishes :
    seen 0x1000000000000 { strip 8 [] with fading := [(0, 0x04)], dir := [(0, 0x04)], fadeInOnly := true }
        (fun t => (t.resp, t.fading, t.dir, t.extcnt)) =
      some (some 0x00000103, [], [(0, 0x04)], 1) := by decide

/-- 95 2.3: SETFADING 2, 0x101010 forces the pixel black; its target is 00. -/
theorem test_setfading_black_target :
    after 0x2000200101010 (strip 8 [(2, 0x777777), (3, 0x777777)]) =
      some { strip 8 [(3, 0x777777)] with
        fading := [(0, 0x04)], dir := [(0, 0x04)], resp := some 0, livePort := [.write 2 0x000000] } := by decide

/-- 95 2.8: pixel number 0x0103 is not truncated to pixel 3. -/
theorem test_setfading_not_truncated :
    after 0x2010300FFFFFF (strip 10 [(3, 0x777777)]) = some { strip 10 [(3, 0x777777)] with resp := some 0 } := by decide

/-- 95 2.3: STOPFADING 5 after SETFADING 5. -/
theorem test_stopfading :
    seen 0x3000500000000 { strip 8 [] with fading := [(0, 0x20)], dir := [(0, 0x20)], target := [(5, 0x18)] }
        (fun t => (t.fading, t.dir, t.target)) =
      some ([], [(0, 0x20)], [(5, 0x18)]) := by decide

/-- 95 2.3: FRESET byte-wide, N = 12. -/
theorem test_freset :
    seen 0x4000000000000 { strip 12 [] with fading := [(0, 0xA5), (1, 0x09)], dir := [(0, 0xFF), (1, 0x0F)] }
        (fun t => (t.resp, t.fading, t.dir)) =
      some (some 0, [(0, 0xA5), (1, 0x09)], [(0, 0x5A), (1, 0x06)]) := by decide

/-- 95 2.3: only `data[0]` counts. -/
theorem test_setfademode :
    seen 0x50000FFFFFFFE { strip 8 [] with fadeInOnly := true } (fun t => t.fadeInOnly) = some false ∧
      seen 0x50000FFFFFFFF (strip 8 []) (fun t => t.fadeInOnly) = some true := by decide

/-- 95 2.7, N = 16, F = 00 82. -/
def twoFading : State := { strip 16 [] with fading := [(1, 0x82)], target := [(9, 0x1A)], extcnt := 0x100 }

theorem test_countfading : seen 0x6FFFFFFFFFFFF twoFading (fun t => t.resp) = some (some 2) := by decide

theorem test_anyfading : seen 0x7000000000000 twoFading (fun t => t.resp) = some (some 1) := by decide

/-- 95 2.5: the count of 256 needs all nine bits. -/
theorem test_extinguished : seen 0x8000000000000 twoFading (fun t => t.resp) = some (some 0x100) := by decide

theorem test_isfading :
    seen 0x9000F00000000 twoFading (fun t => t.resp) = some (some 1) ∧
      seen 0x9000800000000 twoFading (fun t => t.resp) = some (some 0) := by decide

theorem test_gettarget : seen 0xA000900000000 twoFading (fun t => t.resp) = some (some 0x1A) := by decide

/-- 95 2.2 row 5: red snaps, green moves, blue above its target stays. -/
theorem test_capstep_up :
    seen 0xB000000000000 { strip 1 [(0, 0x3F7EBD)] with dir := [(0, 1)], target := [(0, 0x5A)] }
        (fun t => (t.resp, t.live)) = some (some 0, [(0, 0x4081BD)]) := by decide

/-- 95 2.2 row 9: floored at 0, no unsigned underflow. -/
theorem test_capstep_down :
    seen 0xB000000000000 { strip 1 [(0, 0x010203)] with target := [(0, 0xDB)] } (fun t => (t.resp, t.live)) =
      some (some 1, []) := by decide

/-- 95 2.1: the upper data byte is ignored. -/
theorem test_reduce : seen 0xC0000FFABCDEF (strip 1 []) (fun t => t.resp) = some (some 0x9B) := by decide

theorem test_expand : seen 0xD0000FFFFFFA5 (strip 1 []) (fun t => t.resp) = some (some 0x00A02040) := by decide

theorem test_reserved :
    after 0xE000912345678 busy = some { busy with resp := some 0 } ∧
      after 0xF0009FFFFFFFF busy = some { busy with resp := some 0 } := by decide

/-- 95 2.1, the step column: by formula, by the black special case, and for a byte the engine never stores. -/
theorem test_step_sizes : stepOf 0x53 = 0x010203 ∧ stepOf 0x00 = 0x010101 ∧ stepOf 0xFF = 0x030303 := by decide

/-! ## Witnesses: a state and operands that meet the hypotheses of each claim together -/

/-- `busy` turned down, its pixel 3 one step from black. -/
def busyDown : State := { busy with dir := [], live := [(3, 0x030000), (9, 0x00BE7E)] }

/-- A strip of one pixel, one step from the end of its leg. -/
def oneUp : State := { strip 1 [(0, 0xBE0000)] with fading := [(0, 1)], dir := [(0, 1)], target := [(0, 0xC0)], extcnt := 1 }

theorem busy_inv : busy.Inv where
  cfgOK := by decide
  fadingWf := by decide
  dirWf := by decide
  targetWf := by decide
  liveWf := by decide
  fadingWithin := by decide
  dirWithin := by decide
  targetWithin := by decide
  liveWithin := by decide
  fadingPadding := fun j h h' => by
    have : ∀ j < 16, 12 ≤ j → getBit busy.fading j = false := by decide
    exact this j h' h
  dirPadding := fun j h h' => by
    have : ∀ j < 16, 12 ≤ j → getBit busy.dir j = false := by decide
    exact this j h' h
  targetReachable := fun p => by
    simp only [State.targetOf, busy, readMem]
    split
    · decide
    · split
      · decide
      · split <;> decide
  extcntLe := by decide

theorem witness_IgnoredBitsHaveNoEffect :
    (0xC9999FFABCDEF : Cmd) &&& usedMask (opField 0xC9999FFABCDEF) =
      0xC000000ABCDEF &&& usedMask (opField 0xC9999FFABCDEF) ∧ (0xC9999FFABCDEF : Cmd) ≠ 0xC000000ABCDEF := by decide

theorem witness_StepRunsTheDecodedCommand :
    ({ busy with host := [.command 0x1000000000003, .present] } : State).host = .command 0x1000000000003 :: [.present] :=
  rfl

theorem witness_EveryCommandCompletesWithAResponse :
    ({ busy with host := [.command 0xF0009FFFFFFFF] } : State).host = .command 0xF0009FFFFFFFF :: [] := rfl

theorem witness_UnnamedResponseBitsAreZero :
    busy.cfg.wellFormed ∧ (strip 256 []).cfg.wellFormed ∧ (strip 1 []).cfg.wellFormed := by decide

theorem witness_IdleEngineKeepsItsState : busy.host = [] ∧ busy.fading ≠ [] := by decide

theorem witness_RstResetsTheEngineOnly :
    ({ busy with host := [.rst, .present] } : State).host = .rst :: [.present] ∧ busy.live ≠ [] := by decide

theorem witness_RstAbandonsAnOperation :
    ({ oneUp with host := [.abandon 0x1000000000003 1, .present] } : State).host =
      .abandon 0x1000000000003 1 :: [.present] := rfl

/-- 70 R160: `rst` after the read and before the write of the one pixel, and after both. -/
theorem test_rst_during_tick :
    (next? (step { oneUp with host := [.abandon 0x1000000000003 1] })).map (fun t => (t.live, t.resp)) =
        some ([(0, 0xBE0000)], none) ∧
      (next? (step { oneUp with host := [.abandon 0x1000000000003 2] })).map (fun t => (t.live, t.resp)) =
        some ([(0, 0xC00000)], none) := by decide

theorem witness_StepSizes : expand 0x00 = 0x000000 ∧ expand 0x01 ≠ 0x000000 := by decide

/-- Both outcomes of a lane: red goes up by its step, green and blue go to their bounds (pixel 9 lands). -/
theorem witness_CapstepIncreasing :
    (3 : Pix).toNat < busy.cfg.pixels ∧ busy.dirOf 3 = .inc ∧ (legStep .inc 0xC0 0x060000).2 = false ∧
      (9 : Pix).toNat < busy.cfg.pixels ∧ busy.dirOf 9 = .inc ∧ (legStep .inc 0x1A 0x00BE7E).2 = true := by decide

theorem witness_CapstepDecreasing :
    (3 : Pix).toNat < busyDown.cfg.pixels ∧ busyDown.dirOf 3 = .dec ∧ (legStep .dec 0xC0 0x030000).2 = true ∧
      (9 : Pix).toNat < busyDown.cfg.pixels ∧ busyDown.dirOf 9 = .dec ∧ (legStep .dec 0x1A 0x00BE7E).2 = false := by
  decide

theorem witness_IncompleteLegMoves :
    (legStep .inc 0xC0 0x060000).2 = false ∧ (legStep .dec 0xC0 0x060000).2 = false := by decide

theorem witness_LegsTakeSixtyFourSteps :
    (0xDB : Byte) &&& 0x24 = 0 ∧ (0xDB : Byte) ≠ 0 ∧ (0x01 : Byte) &&& 0x24 = 0 ∧ (0x01 : Byte) ≠ 0 := by decide

/-- The shortest leg, a leg of two steps, and the longest. -/
theorem witness_DecreasingLegLength :
    downLength 0xC0 0x000000 = 1 ∧ 0 + 1 < downLength 0xC0 0x040000 ∧ downLength 0x00 0xFF0000 = 255 := by decide

theorem witness_OutOfRangePixelIsDropped :
    busy.cfg.pixels ≤ (12 : Pix).toNat ∧ busy.cfg.pixels ≤ (0xFFFF : Pix).toNat ∧
      (strip 256 []).cfg.pixels ≤ (0x0100 : Pix).toNat := by decide

/-- The last pixel of a strip, and one that is fading already. -/
theorem witness_SetfadingStartsAFade :
    (11 : Pix).toNat < busy.cfg.pixels ∧ (3 : Pix).toNat < busy.cfg.pixels ∧ busy.isFading 3 = true := by decide

theorem witness_StopfadingClearsTheBit :
    (11 : Pix).toNat < busy.cfg.pixels ∧ busy.isFading 11 = false ∧ (3 : Pix).toNat < busy.cfg.pixels ∧
      busy.isFading 3 = true := by decide

/-- A fading pixel, a pixel that is not, and the first pixel number beyond the strip. -/
theorem witness_FresetTurnsFadingPixelsDown :
    3 < busy.cfg.pixels ∧ busy.isFading 3 = true ∧ busy.dirOf 3 = .inc ∧ 11 < busy.cfg.pixels ∧
      busy.isFading 11 = false ∧ busy.cfg.pixels ≤ 12 := by decide

theorem witness_FresetByteWide : busy.Inv ∧ busy.isFading 3 = true := ⟨busy_inv, by decide⟩

theorem witness_IneligibleTickWritesNothing :
    isEligible 0xFFFFFFF9 busy.nextt = false ∧ isEligible 0x7FFFFFFA busy.nextt = false := by decide

/-- The earliest and the latest eligible tick, pixels fading; and an eligible tick with none fading. -/
theorem witness_EligibleTickRegisters :
    isEligible 0xFFFFFFFA busy.nextt = true ∧ isEligible 0x7FFFFFF9 busy.nextt = true ∧
      isEligible 0 (strip 12 []).nextt = true ∧ ∀ p < (strip 12 []).cfg.pixels, (strip 12 []).isFading p = false := by
  decide

theorem witness_EligibleTickIsAMapOverPixels :
    isEligible 3 busy.nextt = true ∧ (busy.pixel 3).ticked busy.fadeInOnly ≠ busy.pixel 3 := by decide

/-- An incomplete leg, and a complete increasing leg without FADEINONLY. -/
theorem witness_LegCompletionPolicy_up :
    isEligible 3 busy.nextt = true ∧ 3 < busy.cfg.pixels ∧ busy.isFading 3 = true ∧
      (legStep (busy.dirOf 3) (busy.targetOf 3) (busy.liveOf 3)).2 = false ∧
      9 < busy.cfg.pixels ∧ busy.isFading 9 = true ∧ busy.dirOf 9 = .inc ∧ busy.fadeInOnly = false ∧
      (legStep (busy.dirOf 9) (busy.targetOf 9) (busy.liveOf 9)).2 = true := by decide

/-- A complete increasing leg with FADEINONLY. -/
theorem witness_LegCompletionPolicy_fadeInOnly :
    let s : State := { busy with fadeInOnly := true }
    isEligible 3 s.nextt = true ∧ 9 < s.cfg.pixels ∧ s.isFading 9 = true ∧ s.dirOf 9 = .inc ∧ s.fadeInOnly = true ∧
      (legStep (s.dirOf 9) (s.targetOf 9) (s.liveOf 9)).2 = true := by decide

/-- A complete decreasing leg. -/
theorem witness_LegCompletionPolicy_down :
    isEligible 3 busyDown.nextt = true ∧ 3 < busyDown.cfg.pixels ∧ busyDown.isFading 3 = true ∧
      busyDown.dirOf 3 = .dec ∧ (legStep (busyDown.dirOf 3) (busyDown.targetOf 3) (busyDown.liveOf 3)).2 = true := by
  decide

theorem witness_ExtcntCountsTheExtinguished :
    busyDown.cfg.wellFormed ∧ isEligible 3 busyDown.nextt = true ∧ busyDown.countPixels busyDown.isFading = 2 := by decide

/-- With a pixel fading, and with none. -/
theorem witness_EligibleTickResponse :
    isEligible 3 busy.nextt = true ∧ (3 < busy.cfg.pixels ∧ busy.isFading 3 = true) ∧
      isEligible 0 (strip 12 []).nextt = true ∧ (strip 12 []).fading = [] := by decide

theorem witness_EligibleTickLiveAccesses :
    isEligible 3 busy.nextt = true ∧ (List.range busy.cfg.pixels).filter busy.isFading = [3, 9] := by decide

/-- 9 ms and 10 ms later, across the wrap of the clock, and the last moment within the range. -/
theorem witness_EligibleTicksAreTenMsApart :
    isEligible 0xFFFFFFFB busy.nextt = true ∧ ((4 : Time) - 0xFFFFFFFB).toNat = 9 ∧
      ((5 : Time) - 0xFFFFFFFB).toNat = 10 ∧ ((0x7FFFFFFA : Time) - 0xFFFFFFFB).toNat = 2 ^ 31 - 1 := by decide

theorem witness_ScanOrderDoesNotMatter :
    busy.Inv ∧ (List.range busy.cfg.pixels).reverse.Perm (List.range busy.cfg.pixels) ∧
      (List.range busy.cfg.pixels).reverse ≠ List.range busy.cfg.pixels :=
  ⟨busy_inv, List.reverse_perm _, by decide⟩

/-- A clock that is read every 10 ms. -/
theorem spacedFrom_tens (n a : Nat) :
    spacedFrom (BitVec.ofNat 32 (10 * a)) ((List.range' (a + 1) n).map fun k => BitVec.ofNat 32 (10 * k)) := by
  induction n generalizing a with
  | zero => trivial
  | succ n ih =>
    have ten : (BitVec.ofNat 32 (10 * (a + 1)) - BitVec.ofNat 32 (10 * a)).toNat = 10 := by
      rw [BitVec.toNat_sub, BitVec.toNat_ofNat, BitVec.toNat_ofNat]
      omega
    exact ⟨ten.ge, ten.trans_lt (by decide), ih (a + 1)⟩

/-- BB's scenario: pixel 3 of ten, toward red, ticks at 0, 10, 20 and so on. -/
theorem witness_FadeReachesItsTargetIn64Ticks :
    let tens (a n : Nat) : List Time := (List.range' a n).map fun k => BitVec.ofNat 32 (10 * k)
    (3 : Pix).toNat < State.reset.cfg.pixels ∧ reduce 0xFF0000 ≠ 0 ∧ isEligible 0 State.reset.nextt = true ∧
      spacedFrom 0 (tens 1 63 ++ tens 64 64) ∧ (tens 1 63).length = 63 ∧ (tens 64 64).length = 64 := by
  refine ⟨by decide, by decide, by decide, ?_, by simp, by simp⟩
  have h := spacedFrom_tens 127 0
  rwa [show List.range' (0 + 1) 127 = List.range' 1 63 ++ List.range' 64 64 from
    (List.range'_append (s := 1) (m := 63) (n := 64) (step := 1)).symm, List.map_append] at h

theorem witness_CountfadingCounts : busy.cfg.wellFormed ∧ busy.countPixels busy.isFading = 2 := by decide

/-- With a pixel fading, and with none. -/
theorem witness_AnyfadingAgreesWithCount :
    busy.cfg.wellFormed ∧ (3 < busy.cfg.pixels ∧ busy.isFading 3 = true) ∧ (strip 12 []).cfg.wellFormed ∧
      ∀ p < (strip 12 []).cfg.pixels, (strip 12 []).isFading p = false := by decide

/-- The invariant at a state with a stored target. -/
theorem witness_GettargetReturnsTheByte : busy.Inv ∧ (9 : Pix).toNat < busy.cfg.pixels ∧ busy.targetOf 9 = 0x1A :=
  ⟨busy_inv, by decide, by decide⟩

theorem witness_QueriesArePure : Query .countfading ∧ Query (.gettarget 9) := ⟨trivial, trivial⟩

/-- A tick changes DIR, EXTCNT, NEXTT and LIVE. -/
theorem witness_OnlyTheListedOperationsWrite_tick :
    seen 0x1000000000003 oneUp (fun t => decide (t.dir ≠ oneUp.dir ∧ t.extcnt ≠ oneUp.extcnt)) = some true := by decide

theorem witness_OnlyTheListedOperationsWrite_tick_again :
    seen 0x1000000000003 oneUp (fun t => decide (t.nextt ≠ oneUp.nextt ∧ t.live ≠ oneUp.live)) = some true := by decide

/-- A tick changes FADING. -/
theorem witness_OnlyTheListedOperationsWrite_tick_fadeInOnly :
    seen 0x1000000000003 { oneUp with fadeInOnly := true } (fun t => decide (t.fading ≠ oneUp.fading)) = some true := by
  decide

/-- SETFADING changes TARGET, SETFADEMODE changes FADEINONLY. -/
theorem witness_OnlyTheListedOperationsWrite_control :
    seen 0x200050000FF00 busy (fun t => decide (t.target ≠ busy.target)) = some true ∧
      seen 0x5000000000001 busy (fun t => decide (t.fadeInOnly ≠ busy.fadeInOnly)) = some true := by decide

/-- The three phases, with an eligible tick; SETFADING leads out of the idle one. -/
theorem witness_PixelLifeFollowsItsTable :
    3 < busy.cfg.pixels ∧ isEligible 3 busy.nextt = true ∧ (busy.pixel 3).phase = .up ∧
      (busyDown.pixel 3).phase = .down ∧ (busy.pixel 5).phase = .idle ∧
      seen 0x200050000FF00 busy (fun t => decide ((t.pixel 5).phase = .up)) = some true ∧
      seen 0x2000300FF0000 busyDown (fun t => decide ((t.pixel 3).phase = .up)) = some true := by decide

theorem witness_PixelCountNeverChanges :
    ∃ t, step { busy with host := [.command 0x1000000000003] } = .next t := ⟨_, rfl⟩

theorem witness_InvariantHoldsAtReset :
    let live : Memory 24 := [(0, 0x111111), (255, 0xFFFFFF)]
    (⟨256⟩ : Config).wellFormed ∧ live.wf ∧ live.within 256 := by decide

theorem witness_EveryStepKeepsTheInvariant :
    let s : State := { busy with host := [.command 0x1000000000003] }
    s.Inv ∧ ∃ t, step s = .next t :=
  ⟨⟨busy_inv.cfgOK, busy_inv.fadingWf, busy_inv.dirWf, busy_inv.targetWf, busy_inv.liveWf, busy_inv.fadingWithin,
    busy_inv.dirWithin, busy_inv.targetWithin, busy_inv.liveWithin, busy_inv.fadingPadding, busy_inv.dirPadding,
    busy_inv.targetReachable, busy_inv.extcntLe⟩, _, rfl⟩

theorem witness_HostWriteThenRead :
    11 < busy.cfg.pixels ∧
      ({ busy with host := [.liveWrite 11 0xD01020, .liveRead 11] } : State).host =
        .liveWrite 11 0xD01020 :: .liveRead 11 :: [] := by decide

theorem witness_PresentAndBrightnessChangeNothing :
    ({ busy with host := [.present] } : State).host = .present :: [] ∧
      ({ busy with host := [.setBrightness 0x80] } : State).host = .setBrightness 0x80 :: [] := by decide

theorem witness_HostAccessBeyondNStops :
    busy.cfg.pixels ≤ 12 ∧ fault? (step { busy with host := [.liveRead 12] }) = some (.noSuchLiveEntry 12) ∧
      fault? (step { busy with host := [.liveWrite 12 0x000001] }) = some (.noSuchLiveEntry 12) := by decide

end Sys2Proof.Tests
end

/-! # 00 R6: N is a parameter

What each operation of the engine and each move of the host does to `cfg`, and so to N: nothing (00 R6, 10 R26). -/

namespace Sys2Proof.Machine

/-! ## The operations the instructions share -/

@[simp] theorem applyStep_cfg (s : State) (p : Nat) : (applyStep s p).2.cfg = s.cfg := rfl

@[simp] theorem startFade_cfg (s : State) (p : Nat) (color : Color) : (startFade s p color).cfg = s.cfg := rfl

@[simp] theorem beginTick_cfg (now : Time) (s : State) : (beginTick now s).cfg = s.cfg := rfl

/-- A dropped operation changes nothing but the response (41 R91), so only the operation on an existing pixel matters. -/
theorem onPixel_cfg {s : State} {f : Nat → State} (p : Pix) (h : ∀ n, (f n).cfg = s.cfg) :
    (onPixel s p f).cfg = s.cfg := by
  by_cases hp : p.toNat < s.cfg.pixels
  · rw [onPixel_of_lt hp, h]
  · rw [onPixel_of_ge (Nat.not_lt.mp hp), State.respond_cfg]

@[simp] theorem forPixels_turnDown_cfg (s : State) (n : Nat) : (forPixels n turnDown s).cfg = s.cfg := by
  obtain ⟨d, hscan, -⟩ := turnDown_scan s n
  rw [hscan]

@[simp] theorem scanPixels_beginTick_cfg (now : Time) (s : State) : (scanPixels (beginTick now s)).2.cfg = s.cfg := by
  obtain ⟨-, hframe, -⟩ := scanPixels_beginTick s now
  rw [hframe.cfg, beginTick_cfg]

/-! ## The engine -/

theorem execTick_cfg (now : Time) (s : State) : ∃ t, exec (.tick now) s = .next t ∧ t.cfg = s.cfg := by
  cases h : isEligible now s.nextt with
  | true => exact ⟨_, exec_tick_eligible h, by simp⟩
  | false => exact ⟨_, exec_tick_ineligible h, by simp⟩

/-- Every operation completes (60 R140), and N is as before (00 R6). -/
theorem exec_cfg (i : Instr) (s : State) : ∃ t, exec i s = .next t ∧ t.cfg = s.cfg := by
  cases i with
  | tick now => exact execTick_cfg now s
  | freset => exact ⟨_, rfl, by simp⟩
  | setfading p | stopfading p | capstep p | isfading p | gettarget p =>
    exact ⟨_, rfl, onPixel_cfg p fun n => by simp⟩
  | nop | setfademode | countfading | anyfading | extinguished | reduce | expand | reservedE | reservedF =>
    exact ⟨_, rfl, by simp⟩

theorem exec_next_cfg {i : Instr} {s t : State} (h : exec i s = .next t) : t.cfg = s.cfg := by
  obtain ⟨u, hu, hcfg⟩ := exec_cfg i s
  cases hu.symm.trans h
  exact hcfg

/-! ## The host -/

@[simp] theorem clearOutputs_cfg (s : State) : (clearOutputs s).cfg = s.cfg := rfl

@[simp] theorem takeMove_cfg (s : State) (rest : List HostMove) : (takeMove s rest).cfg = s.cfg := rfl

@[simp] theorem hardReset_cfg (s : State) : (hardReset s).cfg = s.cfg := rfl

/-- The state after an abandoned operation is made of the state before it and of LIVE, whatever the operation was. -/
theorem hostAbandon_next_cfg {made : Nat} {o : Host.Outcome State Fault Refusal} {s t : State}
    (h : hostAbandon made o s = .next t) : t.cfg = s.cfg := by
  cases o with
  | next u => cases h; rfl
  | fault r => cases h
  | refused r => cases h

theorem hostLiveRead_next_cfg {p : Nat} {s t : State} (h : hostLiveRead p s = .next t) : t.cfg = s.cfg := by
  unfold hostLiveRead at h
  split at h <;> cases h
  rfl

theorem hostLiveWrite_next_cfg {p : Nat} {c : Color} {s t : State} (h : hostLiveWrite p c s = .next t) :
    t.cfg = s.cfg := by
  unfold hostLiveWrite at h
  split at h <;> cases h
  rfl

/-! ## The step -/

/-- Settles O51: taking a move off the list keeps N, and so does each of the moves. -/
theorem pixelCountNeverChanges : Obligations.PixelCountNeverChanges := by
  intro s t h
  unfold step at h
  cases hhost : s.host with
  | nil =>
    rw [hhost] at h
    cases h
    exact clearOutputs_cfg s
  | cons move rest =>
    rw [hhost] at h
    rw [← takeMove_cfg s rest]
    cases move with
    | command w => exact exec_next_cfg h
    | rst => cases h; exact hardReset_cfg _
    | abandon w made => exact hostAbandon_next_cfg h
    | liveRead p => exact hostLiveRead_next_cfg h
    | liveWrite p c => exact hostLiveWrite_next_cfg h
    | present | setBrightness level => cases h; rfl

end Sys2Proof.Machine

/-! # 10 R25: the invariant, and what each operation may write

What an operation can do to the state is said once (`Effect`); the frame of 20 R43, the reach of its LIVE accesses and
the invariant are each read off that. -/

namespace Sys2Proof.Machine

/-! ## What an operation can do -/

/-- The states an operation can lead to: an answer only, or one of the six effects, each on the state the operation began
in. Dropped operations (41 R91) and ineligible ticks (42 R102) are answers. An upper bound: which answer, and when an
operation is dropped, is not said here. -/
inductive Effect (s : State) : Instr → State → Prop
  | answer (i : Instr) (r : Resp) : Effect s i (s.respond r)
  | setfading {p : Pix} (color : Color) (hp : p.toNat < s.cfg.pixels) :
      Effect s (.setfading p color) ((startFade s p.toNat color).respond 0)
  | stopfading {p : Pix} (hp : p.toNat < s.cfg.pixels) : Effect s (.stopfading p) ((s.setFading p.toNat false).respond 0)
  | capstep {p : Pix} (hp : p.toNat < s.cfg.pixels) :
      Effect s (.capstep p) ((applyStep s p.toNat).2.respond (bitResp (applyStep s p.toNat).1))
  | freset : Effect s .freset ((forPixels s.cfg.pixels turnDown s).respond 0)
  | setfademode (f : Bool) : Effect s (.setfademode f) ((s.setFadeInOnly f).respond 0)
  | tick {now : Time} (he : isEligible now s.nextt = true) :
      Effect s (.tick now) ((scanPixels (beginTick now s)).2.respond
        (tickResp (scanPixels (beginTick now s)).1 true (scanPixels (beginTick now s)).2.extcnt))

/-- An operation with a pixel operand has the effect it has on an existing pixel, or is dropped (41 R91). -/
theorem Effect.onPixel {s : State} {i : Instr} {p : Pix} {f : Nat → State}
    (h : p.toNat < s.cfg.pixels → Effect s i (f p.toNat)) : Effect s i (onPixel s p f) := by
  by_cases hp : p.toNat < s.cfg.pixels
  · rw [onPixel_of_lt hp]
    exact h hp
  · rw [onPixel_of_ge (Nat.not_lt.mp hp)]
    exact .answer i 0

/-- Every operation does what `Effect` allows it. -/
theorem exec_effect {i : Instr} {s t : State} (h : exec i s = .next t) : Effect s i t := by
  cases i with
  | tick now =>
    cases he : isEligible now s.nextt with
    | true => cases (exec_tick_eligible he).symm.trans h; exact .tick he
    | false => cases (exec_tick_ineligible he).symm.trans h; exact .answer _ _
  | setfading p color => cases h; exact .onPixel (.setfading color)
  | stopfading p => cases h; exact .onPixel .stopfading
  | capstep p => cases h; exact .onPixel .capstep
  | isfading p | gettarget p => cases h; exact .onPixel fun _ => .answer _ _
  | freset => cases h; exact .freset
  | setfademode f => cases h; exact .setfademode f
  | nop | countfading | anyfading | extinguished | reduce | expand | reservedE | reservedF =>
    cases h; exact .answer _ _

/-! ## 20 R43: what each operation may write -/

/-- Settles O47: each effect leaves alone the pieces of state that its operation is not listed for. -/
theorem onlyTheListedOperationsWrite : Obligations.OnlyTheListedOperationsWrite := by
  intro i s t h
  refine ⟨exec_next_cfg h, ?_⟩
  cases exec_effect h with
  | answer => simp
  | setfading | stopfading | setfademode => simp [startFade]
  | capstep => simp [applyStep_eq]
  | freset =>
    obtain ⟨d, hscan, -⟩ := turnDown_scan s s.cfg.pixels
    simp [hscan]
  | @tick now =>
    obtain ⟨-, hframe, -⟩ := scanPixels_beginTick s now
    have htarget : (scanPixels (beginTick now s)).2.target = s.target := hframe.target
    have hmode : (scanPixels (beginTick now s)).2.fadeInOnly = s.fadeInOnly := hframe.fadeInOnly
    simp [htarget, hmode]

/-! ## 42 R103, R106: EXTCNT -/

theorem State.countPixels_mono (s : State) {f g : Nat → Bool} (h : ∀ p, f p = true → g p = true) :
    s.countPixels f ≤ s.countPixels g :=
  (List.monotone_filter_right _ h).length_le

theorem State.countPixels_congr (s : State) {f g : Nat → Bool} (h : ∀ p, p < s.cfg.pixels → f p = g p) :
    s.countPixels f = s.countPixels g := by
  unfold State.countPixels
  rw [List.filter_congr fun p hp => h p (List.mem_range.mp hp)]

/-- The count of the pixels that go out fits EXTCNT's nine bits, N being at most 256 (10 R17). -/
theorem extcnt_scanPixels_beginTick {s : State} (hN : s.cfg.wellFormed) (now : Time) :
    (scanPixels (beginTick now s)).2.extcnt.toNat = s.countPixels fun p => (s.pixel p).goesOut s.fadeInOnly := by
  obtain ⟨-, -, -, hext, -⟩ := scanPixels_beginTick s now
  have := s.countPixels_le fun p => (s.pixel p).goesOut s.fadeInOnly
  have := hN.2
  rw [hext, BitVec.toNat_ofNat, Nat.mod_eq_of_lt (by omega)]

/-- Settles O35: the scan counts the pixels that go out, and these are the fading ones whose bit it clears. -/
theorem extcntCountsTheExtinguished : Obligations.ExtcntCountsTheExtinguished := by
  intro s now hN he
  refine ⟨_, exec_tick_eligible he, ?_⟩
  simp only [State.respond_extcnt, State.respond_isFading, extcnt_scanPixels_beginTick hN]
  constructor
  · obtain ⟨-, -, hpix, -⟩ := scanPixels_beginTick s now
    refine s.countPixels_congr fun p hp => ?_
    have hticked := hpix p
    rw [if_pos hp] at hticked
    rw [Pixel.goesOut, ← hticked]
    rfl
  · exact s.countPixels_mono fun p hp => (Bool.and_eq_true_iff.mp hp).1

/-! ## 20 R39: an operation's LIVE accesses are to existing entries -/

theorem Pixel.entry_of_mem_accesses {x : Pixel} {p : Nat} {a : LiveAccess} (h : a ∈ x.accesses p) : a.entry = p := by
  unfold Pixel.accesses at h
  split at h
  · rcases List.mem_pair.mp h with rfl | rfl <;> rfl
  · cases h

/-- The accesses an operation adds to the port are all below N. -/
theorem exec_next_livePort {i : Instr} {s t : State} (h : exec i s = .next t) :
    ∃ new, t.livePort = s.livePort ++ new ∧ ∀ a ∈ new, a.entry < s.cfg.pixels := by
  cases exec_effect h with
  | answer | stopfading | setfademode => exact ⟨[], by simp⟩
  | @setfading p color hp => exact ⟨[.write p.toNat 0], rfl, by simpa [LiveAccess.entry] using hp⟩
  | capstep hp => exact ⟨_, by rw [applyStep_eq]; rfl, by simpa [LiveAccess.entry] using hp⟩
  | freset =>
    obtain ⟨d, hscan, -⟩ := turnDown_scan s s.cfg.pixels
    exact ⟨[], by simp [hscan]⟩
  | @tick now =>
    obtain ⟨-, -, -, -, hport, -⟩ := scanPixels_beginTick s now
    refine ⟨_, hport, fun a ha => ?_⟩
    obtain ⟨p, hp, hmem⟩ := List.mem_flatMap.mp ha
    rw [Pixel.entry_of_mem_accesses hmem]
    exact List.mem_range.mp hp

/-! ## 10 R25: the invariant right after reset -/

theorem resetWith_inv {cfg : Config} {live : Memory 24} (hN : cfg.wellFormed) (hwf : live.wf)
    (hin : live.within cfg.pixels) : (State.resetWith cfg live).Inv where
  cfgOK := hN
  fadingWf := Memory.wf_nil
  dirWf := Memory.wf_nil
  targetWf := Memory.wf_nil
  liveWf := hwf
  fadingWithin := by simp [State.resetWith]
  dirWithin := by simp [State.resetWith]
  targetWithin := by simp [State.resetWith]
  liveWithin := hin
  fadingPadding := by simp [State.resetWith, getBit]
  dirPadding := by simp [State.resetWith, getBit]
  targetReachable := by simp [State.resetWith, State.targetOf]
  extcntLe := Nat.zero_le _

/-- Settles O52: every space is empty or LIVE itself, and EXTCNT is 0. -/
theorem invariantHoldsAtReset : Obligations.InvariantHoldsAtReset :=
  ⟨fun _ _ => resetWith_inv, resetWith_inv (by decide) Memory.wf_nil (by simp)⟩

/-! ## 10 R25: each update keeps the invariant -/

namespace State.Inv

variable {s : State}

theorem respond (h : s.Inv) (r : Resp) : (s.respond r).Inv := { h with }

theorem onPort (h : s.Inv) (a : LiveAccess) : (s.onPort a).Inv := { h with }

theorem setFadeInOnly (h : s.Inv) (f : Bool) : (s.setFadeInOnly f).Inv := { h with }

theorem takeMove (h : s.Inv) (rest : List HostMove) : (takeMove s rest).Inv := { h with }

theorem setLive (h : s.Inv) {p : Nat} (hp : p < s.cfg.pixels) (c : Color) : (s.setLive p c).Inv :=
  { h with
    liveWf := Memory.wf_writeMem h.liveWf p c
    liveWithin := Memory.within_writeMem h.liveWithin hp c }

theorem liveWrite (h : s.Inv) {p : Nat} (hp : p < s.cfg.pixels) (c : Color) : (liveWrite s p c).Inv :=
  (h.setLive hp c).onPort _

/-- A pixel below N has its bit apart from the padding. -/
theorem setFading (h : s.Inv) {p : Nat} (hp : p < s.cfg.pixels) (v : Bool) : (s.setFading p v).Inv :=
  { h with
    fadingWf := Memory.wf_putBit h.fadingWf p v
    fadingWithin := Memory.within_putBit h.fadingWithin hp v
    fadingPadding := fun j hj hb =>
      (getBit_putBit_ne _ v (Nat.ne_of_gt (Nat.lt_of_lt_of_le hp hj))).trans (h.fadingPadding j hj hb) }

theorem setDir (h : s.Inv) {p : Nat} (hp : p < s.cfg.pixels) (d : Direction) : (s.setDir p d).Inv :=
  { h with
    dirWf := Memory.wf_putBit h.dirWf p _
    dirWithin := Memory.within_putBit h.dirWithin hp _
    dirPadding := fun j hj hb =>
      (getBit_putBit_ne _ _ (Nat.ne_of_gt (Nat.lt_of_lt_of_le hp hj))).trans (h.dirPadding j hj hb) }

theorem setTarget (h : s.Inv) {p : Nat} (hp : p < s.cfg.pixels) {q : Byte} (hq : q &&& 0x24 = 0) :
    (s.setTarget p q).Inv :=
  { h with
    targetWf := Memory.wf_writeMem h.targetWf p q
    targetWithin := Memory.within_writeMem h.targetWithin hp q
    targetReachable := fun k => by
      rw [State.setTarget_targetOf]
      split
      · exact hq
      · exact h.targetReachable k }

end State.Inv

/-! ## 10 R25: each operation keeps the invariant -/

/-- Bits 5 and 2, as 10 R25.2 has them. -/
theorem and_0x24_eq_zero_iff : ∀ q : Byte, q &&& 0x24 = 0 ↔ q.getLsbD 5 = false ∧ q.getLsbD 2 = false := by decide

/-- Every byte that `Reduce` gives is reachable (40 R73). -/
theorem reduce_and_0x24 (c : Color) : reduce c &&& 0x24 = 0 :=
  (and_0x24_eq_zero_iff _).mpr ⟨getLsbD_reduce c 5, getLsbD_reduce c 2⟩

theorem startFade_inv {s : State} (h : s.Inv) {p : Nat} (hp : p < s.cfg.pixels) (color : Color) :
    (startFade s p color).Inv :=
  (((h.liveWrite hp 0).setFading hp true).setDir hp .inc).setTarget hp (reduce_and_0x24 color)

theorem applyStep_inv {s : State} (h : s.Inv) {p : Nat} (hp : p < s.cfg.pixels) : (applyStep s p).2.Inv :=
  (h.onPort _).liveWrite hp _

theorem forPixels_turnDown_inv {s : State} (h : s.Inv) : (forPixels s.cfg.pixels turnDown s).Inv := by
  obtain ⟨d, hscan, hbit, hwf, hin⟩ := turnDown_scan s s.cfg.pixels
  rw [hscan]
  exact { h with
    dirWf := hwf h.dirWf
    dirWithin := hin (Nat.le_refl _) h.dirWithin
    dirPadding := fun j hj hb => by
      rw [hbit, if_neg fun hlt => Nat.not_lt.mpr hj hlt.1]
      exact h.dirPadding j hj hb }

/-- A direction is its bit (10 R13). -/
theorem getBit_eq_of_dirOf_eq {s t : State} {p : Nat} (h : t.dirOf p = s.dirOf p) : getBit t.dir p = getBit s.dir p := by
  simpa [State.dirOf] using congrArg Direction.toBit h

theorem State.Inv.spacesOK {s : State} (h : s.Inv) : SpacesOK s :=
  ⟨h.fadingWf, h.dirWf, h.liveWf, h.fadingWithin, h.dirWithin, h.liveWithin⟩

/-- The scan of an eligible tick keeps the spaces, TARGET and the padding, and EXTCNT counts pixels below N. -/
theorem scanPixels_beginTick_inv {s : State} (h : s.Inv) (now : Time) : (scanPixels (beginTick now s)).2.Inv := by
  have hext := extcnt_scanPixels_beginTick h.cfgOK now
  obtain ⟨-, hframe, hpix, -, -, hspaces⟩ := scanPixels_beginTick s now
  generalize (scanPixels (beginTick now s)).2 = t at hext hframe hpix hspaces
  obtain ⟨hfading, hdir, hlive, hfadingIn, hdirIn, hliveIn⟩ := hspaces h.spacesOK
  have hcfg : t.cfg = s.cfg := hframe.cfg
  have htarget : t.target = s.target := hframe.target
  have hpadding : ∀ j, s.cfg.pixels ≤ j → t.isFading j = s.isFading j ∧ t.dirOf j = s.dirOf j := fun j hj => by
    have := hpix j
    rw [if_neg (Nat.not_lt.mpr hj)] at this
    exact ⟨congrArg Pixel.fading this, congrArg Pixel.dir this⟩
  exact {
    cfgOK := hcfg ▸ h.cfgOK
    fadingWf := hfading
    dirWf := hdir
    targetWf := htarget ▸ h.targetWf
    liveWf := hlive
    fadingWithin := hfadingIn
    dirWithin := hdirIn
    targetWithin := by rw [htarget, hcfg]; exact h.targetWithin
    liveWithin := hliveIn
    fadingPadding := fun j hj hb => by
      rw [hcfg] at hj hb
      exact (hpadding j hj).1.trans (h.fadingPadding j hj hb)
    dirPadding := fun j hj hb => by
      rw [hcfg] at hj hb
      exact (getBit_eq_of_dirOf_eq (hpadding j hj).2).trans (h.dirPadding j hj hb)
    targetReachable := fun p => by rw [State.targetOf, htarget]; exact h.targetReachable p
    extcntLe := by rw [hext, hcfg]; exact s.countPixels_le _ }

/-- No operation breaks the invariant. -/
theorem exec_next_inv {i : Instr} {s t : State} (hs : s.Inv) (h : exec i s = .next t) : t.Inv := by
  cases exec_effect h with
  | answer i r => exact hs.respond r
  | setfading color hp => exact (startFade_inv hs hp color).respond 0
  | stopfading hp => exact (hs.setFading hp false).respond 0
  | capstep hp => exact (applyStep_inv hs hp).respond _
  | freset => exact (forPixels_turnDown_inv hs).respond 0
  | setfademode f => exact (hs.setFadeInOnly f).respond 0
  | @tick now => exact (scanPixels_beginTick_inv hs now).respond _

/-! ## 10 R25: each move of the host keeps the invariant -/

theorem hardReset_inv {s : State} (h : s.Inv) : (hardReset s).Inv :=
  { resetWith_inv h.cfgOK h.liveWf h.liveWithin with }

/-- An abandoned operation leaves LIVE with a part of its accesses, which are all to existing entries. -/
theorem hostAbandon_exec_next_inv {i : Instr} {made : Nat} {s t : State} (hs : s.Inv) (hport : s.livePort = [])
    (h : hostAbandon made (exec i s) s = .next t) : t.Inv := by
  obtain ⟨u, hu, -⟩ := exec_cfg i s
  obtain ⟨new, hnew, hentry⟩ := exec_next_livePort hu
  rw [hport, List.nil_append] at hnew
  rw [hu] at h
  cases h
  have hin : ∀ p c, LiveAccess.write p c ∈ u.livePort.take made → p < s.cfg.pixels := fun p c hm =>
    hentry (.write p c) (hnew ▸ List.mem_of_mem_take hm)
  exact { resetWith_inv hs.cfgOK (replay_wf hs.liveWf _) (replay_within hs.liveWithin hin) with }

theorem hostLiveRead_next_inv {p : Nat} {s t : State} (hs : s.Inv) (h : hostLiveRead p s = .next t) : t.Inv := by
  unfold hostLiveRead at h
  split at h <;> cases h
  exact { hs with }

theorem hostLiveWrite_next_inv {p : Nat} {c : Color} {s t : State} (hs : s.Inv)
    (h : hostLiveWrite p c s = .next t) : t.Inv := by
  unfold hostLiveWrite at h
  split at h <;> cases h
  next hp => exact hs.setLive hp c

/-! ## 10 R25: the step -/

/-- Settles O53: taking a move off the list keeps the invariant, and so does each of the moves. -/
theorem everyStepKeepsTheInvariant : Obligations.EveryStepKeepsTheInvariant := by
  intro s t hs h
  unfold step at h
  cases hhost : s.host with
  | nil =>
    rw [hhost] at h
    cases h
    exact { hs with }
  | cons move rest =>
    rw [hhost] at h
    have hs' := hs.takeMove rest
    cases move with
    | command w => exact exec_next_inv hs' h
    | rst => cases h; exact hardReset_inv hs'
    | abandon w made => exact hostAbandon_exec_next_inv hs' rfl h
    | liveRead p => exact hostLiveRead_next_inv hs' h
    | liveWrite p c => exact hostLiveWrite_next_inv hs' h
    | present | setBrightness level => cases h; exact hs'

end Sys2Proof.Machine

/-! # 20 R31, R33, R38 to R40, 49 R125: the storage spaces

FRESET seen byte by byte, LIVE and the engine's port to it, and the host's own accesses to LIVE. -/

namespace Sys2Proof.Machine

/-! ## 20 R38: FRESET byte by byte -/

/-- Bit `j` of byte `a` is the packed bit of pixel `8 * a + j` (20 R31). -/
theorem getLsbD_readMem (m : Memory 8) (a : Nat) {j : Nat} (hj : j < 8) :
    (readMem m a).getLsbD j = getBit m (8 * a + j) := by
  have hbyte : byteIndex (8 * a + j) = a := by unfold byteIndex; omega
  have hbit : bitIndex (8 * a + j) = j := by unfold bitIndex; omega
  rw [getBit, hbyte, hbit]

/-- No pixel number at or beyond N is fading: its bit is padding, or its byte is beyond the space (10 R25.1, 20 R39). -/
theorem State.Inv.isFading_of_ge {s : State} (h : s.Inv) {p : Nat} (hp : s.cfg.pixels ≤ p) : s.isFading p = false := by
  by_cases hb : p < 8 * s.cfg.bytes
  · exact h.fadingPadding p hp hb
  · exact getBit_of_within h.fadingWithin (Nat.not_lt.mp hb)

/-- Settles O28: the scan clears the direction bits of the fading pixels below N, and no other pixel number is fading. -/
theorem fresetByteWide : Obligations.FresetByteWide := by
  intro s hs
  obtain ⟨d, hscan, hbit, -⟩ := turnDown_scan s s.cfg.pixels
  refine ⟨_, rfl, fun a => BitVec.eq_of_getLsbD_eq fun j hj => ?_⟩
  have hfading : (readMem s.fading a).getLsbD j = s.isFading (8 * a + j) := getLsbD_readMem s.fading a hj
  rw [hscan, State.respond_dir, BitVec.getLsbD_and, BitVec.getLsbD_not, hfading, getLsbD_readMem d a hj,
    getLsbD_readMem s.dir a hj, hbit]
  by_cases hp : 8 * a + j < s.cfg.pixels
  · cases s.isFading (8 * a + j) <;> simp [hp, hj]
  · simp [hs.isFading_of_ge (Nat.not_lt.mp hp), hj]

/-! ## 20 R39: no access of the engine outside 0 to N-1 -/

/-- Settles O48: every operation completes, and what it adds to the port is below N. -/
theorem liveAccessesStayInRange : Obligations.LiveAccessesStayInRange := by
  intro i s
  obtain ⟨t, ht, -⟩ := exec_cfg i s
  obtain ⟨new, hport, hentry⟩ := exec_next_livePort ht
  exact ⟨t, new, ht, hport, hentry⟩

/-! ## 20 R33, R40: LIVE changes through the port only -/

/-- From `s` to `t` the port has gained accesses, and LIVE has changed by just these, made in their order. -/
def LiveReplays (s t : State) : Prop :=
  ∃ new, t.livePort = s.livePort ++ new ∧ t.live = new.foldl replayAccess s.live

namespace LiveReplays

variable {s t u : State}

/-- What touches neither the port nor LIVE. -/
theorem of_eq (hport : t.livePort = s.livePort) (hlive : t.live = s.live) : LiveReplays s t :=
  ⟨[], by simpa using hport, hlive⟩

theorem trans (h : LiveReplays s t) (h' : LiveReplays t u) : LiveReplays s u := by
  obtain ⟨new, hport, hlive⟩ := h
  obtain ⟨new', hport', hlive'⟩ := h'
  exact ⟨new ++ new', by rw [hport', hport, List.append_assoc], by rw [hlive', hlive, List.foldl_append]⟩

end LiveReplays

theorem applyStep_liveReplays (s : State) (p : Nat) : LiveReplays s (applyStep s p).2 := by
  rw [applyStep_eq]
  exact ⟨_, rfl, rfl⟩

theorem startFade_liveReplays (s : State) (p : Nat) (color : Color) : LiveReplays s (startFade s p color) :=
  ⟨[.write p 0], rfl, rfl⟩

/-- The end of a leg writes FADING, DIR and EXTCNT only (42 R106). -/
theorem finishLeg_liveReplays (s : State) (p : Nat) : LiveReplays s (finishLeg s p) := by
  unfold finishLeg
  split
  · split <;> exact .of_eq rfl rfl
  · exact .of_eq rfl rfl

theorem visitPixel_liveReplays (p : Nat) (k : Bool × State) : LiveReplays k.2 (visitPixel p k).2 := by
  unfold visitPixel
  split
  · have hstep := applyStep_liveReplays k.2 p
    dsimp only
    split
    · exact hstep.trans (finishLeg_liveReplays _ p)
    · exact hstep
  · exact .of_eq rfl rfl

theorem scanPixels_liveReplays (s : State) : LiveReplays s (scanPixels s).2 :=
  forPixels_induction (fun _ k => LiveReplays s k.2) (.of_eq rfl rfl)
    fun p k _ h => h.trans (visitPixel_liveReplays p k)

theorem exec_next_liveReplays {i : Instr} {s t : State} (h : exec i s = .next t) : LiveReplays s t := by
  cases exec_effect h with
  | answer | stopfading | setfademode => exact .of_eq rfl rfl
  | setfading color => exact startFade_liveReplays s _ color
  | capstep => exact applyStep_liveReplays s _
  | freset =>
    obtain ⟨d, hscan, -⟩ := turnDown_scan s s.cfg.pixels
    rw [hscan]
    exact .of_eq rfl rfl
  | @tick now => exact scanPixels_liveReplays (beginTick now s)

/-- Settles O49: every operation completes, and each of its effects reaches LIVE through the port. -/
theorem liveChangesThroughThePort : Obligations.LiveChangesThroughThePort := by
  intro i s
  obtain ⟨t, ht, -⟩ := exec_cfg i s
  obtain ⟨new, hport, hlive⟩ := exec_next_liveReplays ht
  exact ⟨t, new, ht, hport, hlive⟩

/-! ## 49 R125 b, c: the host's own accesses -/

theorem step_liveRead {s : State} {p : Nat} {rest : List HostMove} (h : s.host = .liveRead p :: rest) :
    step s = hostLiveRead p (takeMove s rest) := by
  rw [step, h]

theorem step_liveWrite {s : State} {p : Nat} {c : Color} {rest : List HostMove} (h : s.host = .liveWrite p c :: rest) :
    step s = hostLiveWrite p c (takeMove s rest) := by
  rw [step, h]

theorem hostLiveRead_of_lt {s : State} {p : Nat} (h : p < s.cfg.pixels) :
    hostLiveRead p s = .next { s with hostRead := some (s.liveOf p) } := if_pos h

theorem hostLiveWrite_of_lt {s : State} {p : Nat} {c : Color} (h : p < s.cfg.pixels) :
    hostLiveWrite p c s = .next (s.setLive p c) := if_pos h

theorem hostLiveRead_of_ge {s : State} {p : Nat} (h : s.cfg.pixels ≤ p) :
    hostLiveRead p s = .fault (.noSuchLiveEntry p) := if_neg (Nat.not_lt.mpr h)

theorem hostLiveWrite_of_ge {s : State} {p : Nat} {c : Color} (h : s.cfg.pixels ≤ p) :
    hostLiveWrite p c s = .fault (.noSuchLiveEntry p) := if_neg (Nat.not_lt.mpr h)

/-- Settles O54: the first step is a write of LIVE entry `p` alone, and the second reads that entry. -/
theorem hostWriteThenRead : Obligations.HostWriteThenRead := by
  intro s p c rest hp hhost
  have hwrite : step s = .next ((takeMove s (.liveRead p :: rest)).setLive p c) :=
    (step_liveWrite hhost).trans (hostLiveWrite_of_lt hp)
  have hwritten : ((takeMove s (.liveRead p :: rest)).setLive p c).liveOf p = c := by simp
  have hread := (step_liveRead (s := (takeMove s (.liveRead p :: rest)).setLive p c) rfl).trans (hostLiveRead_of_lt hp)
  exact ⟨_, _, hwrite, hwritten, fun _ ha => readMem_writeMem_ne s.live c ha, rfl, rfl, rfl, rfl, rfl, rfl, hread,
    congrArg some hwritten, rfl⟩

/-- Settles O56: taking the move off the list keeps N, and beyond N both accesses are faults. -/
theorem hostAccessBeyondNStops : Obligations.HostAccessBeyondNStops := fun _ _ _ _ hp =>
  ⟨fun h => (step_liveRead h).trans (hostLiveRead_of_ge hp), fun h => (step_liveWrite h).trans (hostLiveWrite_of_ge hp)⟩

end Sys2Proof.Machine

/-! # 30: the command word, the assembler and the response word

Decoding undoes encoding, and encoding undoes decoding up to the ignored bits (30 R52, R62); every assembler line packs
the fields of its operation (30 R62, R63); every response is a layout that names its bits (30 R55). -/

namespace Sys2Proof.Machine

/-! ## 30 R51 to R53: decode and encode -/

@[simp] theorem colorOperand_cmdWord (op : BitVec 4) (pix : Pix) (data : BitVec 32) :
    colorOperand (cmdWord op pix data) = data.extractLsb' 0 24 := by rw [colorOperand, dataField_cmdWord]

@[simp] theorem flagOperand_cmdWord (op : BitVec 4) (pix : Pix) (data : BitVec 32) :
    flagOperand (cmdWord op pix data) = data.getLsbD 0 := by rw [flagOperand, dataField_cmdWord]

@[simp] theorem byteOperand_cmdWord (op : BitVec 4) (pix : Pix) (data : BitVec 32) :
    byteOperand (cmdWord op pix data) = data.extractLsb' 0 8 := by rw [byteOperand, dataField_cmdWord]

/-- Settles O1: each operand is read back from the field it is put in, an operand narrower than `data` from its low bits. -/
theorem decodeOfEncodeIsIdentity : Obligations.DecodeOfEncodeIsIdentity := by
  intro i
  cases i with
  | nop | freset | countfading | anyfading | extinguished | reservedE | reservedF => rfl
  | tick => simp [encode, decode]
  | stopfading | isfading | gettarget | capstep => simp [encode, decode]
  | setfading | reduce | expand => simp [encode, decode, extractLsb'_zeroExtend]
  | setfademode f => cases f <;> rfl

theorem encode_injective : Function.Injective encode := Function.LeftInverse.injective decodeOfEncodeIsIdentity

/-! ## 30 R52, R60: the bits an opcode uses -/

theorem cmdWord_and_cmdWord (op op' : BitVec 4) (pix pix' : Pix) (data data' : BitVec 32) :
    cmdWord op pix data &&& cmdWord op' pix' data' = cmdWord (op &&& op') (pix &&& pix') (data &&& data') := by
  apply BitVec.eq_of_getLsbD_eq
  intro i _
  simp only [BitVec.getLsbD_and, getLsbD_cmdWord]
  split
  · rfl
  · split <;> rfl

/-- Every opcode uses all four bits of `op` (30 R53). -/
theorem opField_usedMask : ∀ op : BitVec 4, opField (usedMask op) = 0xF := by decide

theorem opField_and_usedMask (w : Cmd) (op : BitVec 4) : opField (w &&& usedMask op) = opField w := by
  have hand : opField (w &&& usedMask op) = opField w &&& opField (usedMask op) := BitVec.extractLsb'_and
  rw [hand, opField_usedMask]
  exact BitVec.and_allOnes

/-- Clearing the ignored bits keeps `op`, and of `pix` and `data` what the mask has there. -/
theorem cmdWord_and_usedMask (op : BitVec 4) (pix : Pix) (data : BitVec 32) :
    cmdWord op pix data &&& usedMask op =
      cmdWord op (pix &&& (usedMask op).extractLsb' 32 16) (data &&& (usedMask op).extractLsb' 0 32) := by
  have hop : op &&& opField (usedMask op) = op := by
    rw [opField_usedMask]
    exact BitVec.and_allOnes
  calc cmdWord op pix data &&& usedMask op
      = cmdWord op pix data &&& cmdWord (opField (usedMask op)) (pixField (usedMask op)) (dataField (usedMask op)) := by
        rw [cmdWord_fields]
    _ = _ := by rw [cmdWord_and_cmdWord, hop, pixField, dataField]

/-- A low operand of `data`, put back there, is `data` with the bits above the operand cleared. -/
theorem zeroExtend_extractLsb' (n : Nat) (data : BitVec 32) :
    (data.extractLsb' 0 n).zeroExtend 32 = data &&& (BitVec.allOnes n).zeroExtend 32 := by
  apply BitVec.eq_of_getLsbD_eq
  intro i hi
  simp [hi, Bool.and_comm]

theorem ofBool_getElem_zero (data : BitVec 32) : BitVec.ofBool data[0] = data.extractLsb' 0 1 := by
  apply BitVec.eq_of_getLsbD_eq
  intro i hi
  simp [Nat.lt_one_iff.mp hi]

/-- The word of the decoded operation is the word that was decoded, its ignored bits cleared. -/
theorem encode_decode (w : Cmd) : encode (decode w) = w &&& usedMask (opField w) := by
  obtain ⟨op, pix, data, rfl⟩ : ∃ op pix data, w = cmdWord op pix data := ⟨_, _, _, (cmdWord_fields w).symm⟩
  have hpix : pix &&& 0xFFFF#16 = pix := BitVec.and_allOnes
  have hdata : data &&& 0xFFFFFFFF#32 = data := BitVec.and_allOnes
  have hcolor : (data.extractLsb' 0 24).setWidth 32 = data &&& 0xFFFFFF#32 := zeroExtend_extractLsb' 24 data
  have hbyte : (data.extractLsb' 0 8).setWidth 32 = data &&& 0xFF#32 := zeroExtend_extractLsb' 8 data
  have hflag : (BitVec.ofBool data[0]).setWidth 32 = data &&& 0x1#32 := by
    rw [ofBool_getElem_zero]
    exact zeroExtend_extractLsb' 1 data
  have hrows : ∀ op : BitVec 4, op = 0x0 ∨ op = 0x1 ∨ op = 0x2 ∨ op = 0x3 ∨ op = 0x4 ∨ op = 0x5 ∨ op = 0x6 ∨ op = 0x7 ∨
      op = 0x8 ∨ op = 0x9 ∨ op = 0xA ∨ op = 0xB ∨ op = 0xC ∨ op = 0xD ∨ op = 0xE ∨ op = 0xF := by decide
  rw [opField_cmdWord, cmdWord_and_usedMask]
  rcases hrows op with rfl | rfl | rfl | rfl | rfl | rfl | rfl | rfl | rfl | rfl | rfl | rfl | rfl | rfl | rfl | rfl <;>
    simp [encode, decode, usedMask, hpix, hdata, hcolor, hbyte, hflag]

/-- Settles O3: both words decode to an operation whose word is theirs with the ignored bits cleared. -/
theorem ignoredBitsHaveNoEffect : Obligations.IgnoredBitsHaveNoEffect := by
  intro w w' h
  have hop : opField w = opField w' := by rw [← opField_and_usedMask w (opField w), h, opField_and_usedMask]
  apply encode_injective
  calc encode (decode w)
      = w &&& usedMask (opField w) := encode_decode w
    _ = w' &&& usedMask (opField w) := h
    _ = encode (decode w') := by rw [hop, encode_decode]

/-! ## 30 R62, R63: the assembler -/

/-- A line in range assembles to the word of its fields (30 R62), which for one of BB's names are those of the line it
expands to (30 R63). -/
theorem assemble_of_fields {l : Asm} {op : BitVec 4} {pix : Pix} {data : BitVec 32} (hl : l.wellFormed = true)
    (h : lineNumber l = packNumber op.toNat pix.toNat data.toNat) : assemble l = some (cmdWord op pix data) := by
  rw [assemble, if_pos hl, h, packNumber, toNat_cmdWord]

theorem assemble_word (w : Cmd) : assemble (.word w.toNat) = some w := by
  have hrange : (Asm.word w.toNat).wellFormed = true := decide_eq_true w.isLt
  have hnumber : lineNumber (.word w.toNat) = w.toNat := rfl
  rw [assemble, if_pos hrange, hnumber, BitVec.ofNat_toNat, BitVec.setWidth_eq]

/-- `reduceColor`'s three channels are the packed colour of 30 R56. -/
theorem assemble_reduceColor (r g b : Byte) :
    assemble (.reduceColor r.toNat g.toNat b.toNat) = some (encode (.reduce (rgb r g b))) := by
  have hrange : (Asm.reduceColor r.toNat g.toNat b.toNat).wellFormed = true := by
    simp only [Asm.wellFormed, Bool.and_eq_true, decide_eq_true_eq]
    omega
  exact assemble_of_fields hrange (congrArg (packNumber 0xC 0) (toNat_rgb r g b).symm)

/-- Settles O5: every operand, having its field's width, is in its line's range, and the line's number packs the fields of
the operation's word. -/
theorem linesAssembleToTheirOperation : Obligations.LinesAssembleToTheirOperation := by
  have hpix (p : Pix) : decide (p.toNat ≤ 0xFFFF) = true := decide_eq_true (by omega)
  have hcolor (c : Color) : decide (c.toNat ≤ 0xFFFFFF) = true := decide_eq_true (by omega)
  have hpair (p : Pix) (c : Color) : (decide (p.toNat ≤ 0xFFFF) && decide (c.toNat ≤ 0xFFFFFF)) = true :=
    Bool.and_eq_true_iff.mpr ⟨hpix p, hcolor c⟩
  have htime (now : Time) : decide (now.toNat ≤ 0xFFFFFFFF) = true := decide_eq_true (by omega)
  have hbyte (q : Byte) : decide (q.toNat ≤ 0xFF) = true := decide_eq_true (by omega)
  refine ⟨rfl, rfl, rfl, rfl, rfl, fun now => ⟨?tick, ?performFade⟩, fun p c => ⟨?setfading, ?aliasSetFading⟩,
    fun p => ⟨?stopfading, ?aliasStopFading, ?isfading, ?gettarget, ?capstep, ?capColorValue⟩,
    fun f => ⟨?setfademode, ?aliasSetFadeMode⟩, fun c => ?reduce, assemble_reduceColor, fun q => ⟨?expand, ?expandColor⟩,
    rfl, rfl, rfl, rfl, rfl, assemble_word⟩
  case tick | performFade => exact assemble_of_fields (htime now) rfl
  case setfading | aliasSetFading => exact assemble_of_fields (hpair p c) rfl
  case stopfading | aliasStopFading | isfading | gettarget | capstep | capColorValue =>
    exact assemble_of_fields (hpix p) rfl
  case setfademode | aliasSetFadeMode => cases f <;> rfl
  case reduce => exact assemble_of_fields (hcolor c) rfl
  case expand | expandColor => exact assemble_of_fields (hbyte q) rfl

/-! ## 30 R54, R55: the response word -/

/-- `t` has a response, with no bit outside `m`. -/
def State.AnswersWithin (t : State) (m : Resp) : Prop := ∃ r, t.resp = some r ∧ r &&& ~~~m = 0

theorem and_not_eq_zero_of_getLsbD {r m : Resp} (h : ∀ i : Fin 32, r.getLsbD i = true → m.getLsbD i = true) :
    r &&& ~~~m = 0 := by
  apply BitVec.eq_of_getLsbD_eq
  intro i hi
  rw [BitVec.getLsbD_and, BitVec.getLsbD_not]
  cases hr : r.getLsbD i with
  | true => simp [h ⟨i, hi⟩ hr]
  | false => simp

theorem answersWithin_zero {t : State} (h : t.resp = some 0) (m : Resp) : t.AnswersWithin m := ⟨0, h, BitVec.zero_and⟩

/-- A response that is one field of `n` bits, from bit 0 up. -/
theorem answersWithin_zeroExtend {t : State} {n : Nat} {x : BitVec n} {m : Resp} (h : t.resp = some (x.zeroExtend 32))
    (hm : ∀ i : Fin 32, i.val < n → m.getLsbD i = true) : t.AnswersWithin m := by
  refine ⟨_, h, and_not_eq_zero_of_getLsbD fun i hi => hm i ?_⟩
  rw [BitVec.zeroExtend_eq_setWidth, BitVec.getLsbD_setWidth, Bool.and_eq_true] at hi
  exact BitVec.lt_of_getLsbD hi.2

theorem answersWithin_tickResp {t : State} {changed eligible : Bool} {ext : Count}
    (h : t.resp = some (tickResp changed eligible ext)) : t.AnswersWithin 0x0001FF03 := by
  have hlayout : ∀ i : Fin 32, (i.val = 0 ∨ i.val = 1 ∨ 8 ≤ i.val ∧ i.val < 17) → (0x0001FF03 : Resp).getLsbD i = true := by
    decide
  refine ⟨_, h, and_not_eq_zero_of_getLsbD fun i hi => hlayout i ?_⟩
  by_contra hout
  simp only [not_or] at hout
  obtain ⟨h0, h1, hext⟩ := hout
  rw [getLsbD_tickResp, if_neg h0, if_neg h1, if_neg hext] at hi
  cases hi

/-- A dropped operation answers 0 (41 R91), which is within every layout. -/
theorem answersWithin_onPixel {s : State} {p : Pix} {f : Nat → State} {m : Resp} (h : (f p.toNat).AnswersWithin m) :
    (onPixel s p f).AnswersWithin m := by
  by_cases hp : p.toNat < s.cfg.pixels
  · rwa [onPixel_of_lt hp]
  · rw [onPixel_of_ge (Nat.not_lt.mp hp)]
    exact answersWithin_zero rfl m

/-- COUNTFADING's field of nine bits holds every count, N being at most 256 (00 R6). -/
theorem ofNat_countFading {s : State} (hN : s.cfg.wellFormed) :
    BitVec.ofNat 32 (countFading s) = (BitVec.ofNat 9 (countFading s)).zeroExtend 32 := by
  have hle : countFading s ≤ s.cfg.pixels := countFading_eq s ▸ s.countPixels_le s.isFading
  have hN256 := hN.2
  apply BitVec.eq_of_toNat_eq
  simp only [BitVec.zeroExtend_eq_setWidth, BitVec.toNat_setWidth, BitVec.toNat_ofNat]
  omega

/-- Every operation completes (60 R140), its response within its layout. -/
theorem exec_answersWithin (i : Instr) {s : State} (hN : s.cfg.wellFormed) :
    ∃ t, exec i s = .next t ∧ t.AnswersWithin (responseMask i) := by
  cases i with
  | nop | freset | setfademode | reservedE | reservedF => exact ⟨_, rfl, answersWithin_zero rfl _⟩
  | setfading p | stopfading p => exact ⟨_, rfl, answersWithin_onPixel (answersWithin_zero rfl _)⟩
  | tick now =>
    cases he : isEligible now s.nextt with
    | true => exact ⟨_, exec_tick_eligible he, answersWithin_tickResp rfl⟩
    | false => exact ⟨_, exec_tick_ineligible he, answersWithin_tickResp rfl⟩
  | countfading => exact ⟨_, rfl, answersWithin_zeroExtend (congrArg some (ofNat_countFading hN)) (by decide)⟩
  | anyfading | extinguished | reduce | expand =>
    exact ⟨_, rfl, answersWithin_zeroExtend rfl (by rw [responseMask]; decide)⟩
  | isfading p | gettarget p | capstep p =>
    exact ⟨_, rfl, answersWithin_onPixel (answersWithin_zeroExtend rfl (by rw [responseMask]; decide))⟩

/-- Settles O8: the response of every operation is within its layout. -/
theorem unnamedResponseBitsAreZero : Obligations.UnnamedResponseBitsAreZero := by
  intro i s hN
  obtain ⟨t, ht, r, hresp, hmask⟩ := exec_answersWithin i hN
  exact ⟨t, r, ht, hresp, hmask⟩

/-! ## 30 R50: a step on a command word -/

theorem step_command {s : State} {w : Cmd} {rest : List HostMove} (h : s.host = .command w :: rest) :
    step s = exec (decode w) (takeMove s rest) := by
  rw [step, h]
  rfl

/-- Settles O6: the state with the move taken is the one the statement writes out. -/
theorem stepRunsTheDecodedCommand : Obligations.StepRunsTheDecodedCommand := fun _ _ _ h => step_command h

/-- Settles O2: the step runs the decoded word, and each operand is read from a field of that word. -/
theorem operandsComeFromTheirFields : Obligations.OperandsComeFromTheirFields := by
  intro s rest pix data run s'
  have hrun (op : BitVec 4) : run op = exec (decode (cmdWord op pix data)) s' := step_command rfl
  simp [hrun, decode]

/-- Settles O4: each line, word and operation is written out. -/
theorem workedEncodings : Obligations.WorkedEncodings := by
  unfold Obligations.WorkedEncodings
  decide

end Sys2Proof.Machine

/-! # 40, 42 R113: the colour datapath

Quantize and expand bit by bit (40 R70 to R72), the steps and legs of a colour channel by channel, as numbers (40 R74 to
R81), and the run of ticks that carries one pixel through its legs (42 R106, R113). -/

namespace Sys2Proof.Machine

/-! ## 40 R70, R71: quantize and expand, field by field -/

/-- Two fields are equal when they are bit by bit. -/
theorem extractLsb'_eq_of_getLsbD {m n k a b : Nat} {x : BitVec m} {y : BitVec n}
    (h : ∀ i < k, x.getLsbD (a + i) = y.getLsbD (b + i)) : x.extractLsb' a k = y.extractLsb' b k := by
  apply BitVec.eq_of_getLsbD_eq
  intro i hi
  simp [hi, h i hi]

/-- A field is 0 when each of its bits is. -/
theorem extractLsb'_eq_zero_of_getLsbD {m k a : Nat} {x : BitVec m} (h : ∀ i < k, x.getLsbD (a + i) = false) :
    x.extractLsb' a k = 0 := by
  apply BitVec.eq_of_getLsbD_eq
  intro i hi
  simp [hi, h i hi]

/-- The bits of the three channels that survive quantization. -/
theorem getLsbD_0xC0C0C0 (i : Fin 24) :
    (0xC0C0C0 : Color).getLsbD i = decide (i.val = 6 ∨ i.val = 7 ∨ i.val = 14 ∨ i.val = 15 ∨ i.val = 22 ∨ i.val = 23) := by
  revert i
  decide

/-- 40 R72. Expanding a quantized colour gives back its top two bits per channel. -/
theorem expand_reduce (c : Color) : expand (reduce c) = c &&& 0xC0C0C0 := by
  apply BitVec.eq_of_getLsbD_eq
  intro i hi
  rw [BitVec.getLsbD_and, getLsbD_0xC0C0C0 ⟨i, hi⟩]
  simp only [getLsbD_expand, getLsbD_reduce]
  interval_cases i <;> simp

/-- 40 R72. Quantizing an expanded byte drops its bits 5 and 2. -/
theorem reduce_expand (q : Byte) : reduce (expand q) = q &&& 0xDB := by
  revert q
  decide

/-- Dropping bits 5 and 2 leaves a reachable byte as it is (40 R73). -/
theorem reduce_expand_of_reachable {q : Byte} (h : q &&& 0x24 = 0) : reduce (expand q) = q := by
  rw [reduce_expand]
  revert q
  decide

/-- Settles O14: the response is `reduce c` bit by bit, and a byte with bits 5 and 2 clear is what its own expansion
reduces to. -/
theorem reduceOperation : Obligations.ReduceOperation := by
  refine ⟨fun c s => ⟨(reduce c).zeroExtend 32, rfl, ?red, ?bit5, ?green, ?bit2, ?blue, ?rest⟩, fun q => ⟨fun h => ?_, ?_⟩⟩
  case red | green | blue =>
    refine extractLsb'_eq_of_getLsbD fun i hi => ?_
    simp only [BitVec.zeroExtend_eq_setWidth, BitVec.getLsbD_setWidth, getLsbD_reduce]
    interval_cases i <;> simp
  case bit5 | bit2 =>
    simp only [BitVec.zeroExtend_eq_setWidth, BitVec.getLsbD_setWidth, getLsbD_reduce]
    simp
  case rest => exact extractLsb'_eq_zero_of_getLsbD fun i _ => by simp
  · exact ⟨expand q, reduce_expand_of_reachable h⟩
  · rintro ⟨c, rfl⟩
    exact reduce_and_0x24 c

/-- Settles O15: the response is `expand q` bit by bit. -/
theorem expandOperation : Obligations.ExpandOperation := by
  intro q s
  refine ⟨(expand q).zeroExtend 32, rfl, ?red, ?redLow, ?green, ?greenLow, ?blue, ?blueLow, ?rest⟩
  case red | green | blue =>
    refine extractLsb'_eq_of_getLsbD fun i hi => ?_
    simp only [BitVec.zeroExtend_eq_setWidth, BitVec.getLsbD_setWidth, getLsbD_expand]
    interval_cases i <;> simp
  case redLow | greenLow | blueLow =>
    refine extractLsb'_eq_zero_of_getLsbD fun i hi => ?_
    simp only [BitVec.zeroExtend_eq_setWidth, BitVec.getLsbD_setWidth, getLsbD_expand]
    interval_cases i <;> simp
  case rest => exact extractLsb'_eq_zero_of_getLsbD fun i _ => by simp

/-- Settles O16: a colour with only its top two bits per channel is left as it is by a second round. -/
theorem quantizeRoundTrips : Obligations.QuantizeRoundTrips :=
  ⟨expand_reduce, reduce_expand, fun c => by simp only [expand_reduce, BitVec.and_assoc, BitVec.and_self]⟩

/-! ## 40 R74, R75: the step of a channel -/

/-- One of the three channels of a colour (30 R56), as the lemmas on a leg step name it. -/
abbrev IsChannel (ch : Color → Byte) : Prop := ch = red ∨ ch = green ∨ ch = blue

theorem mem_channels_iff {ch : Color → Byte} : ch ∈ [red, green, blue] ↔ IsChannel ch := by simp

/-- A colour is given by its channels as numbers. -/
theorem color_eq_iff {c d : Color} : c = d ↔ ∀ ch, IsChannel ch → (ch c).toNat = (ch d).toNat := by
  refine ⟨fun h ch _ => by rw [h], fun h => ?_⟩
  exact color_ext (BitVec.eq_of_toNat_eq (h red (.inl rfl))) (BitVec.eq_of_toNat_eq (h green (.inr (.inl rfl))))
    (BitVec.eq_of_toNat_eq (h blue (.inr (.inr rfl))))

theorem toNat_channel_zero {ch : Color → Byte} (h : IsChannel ch) : (ch 0).toNat = 0 := by
  rcases h with rfl | rfl | rfl <;> rfl

theorem toNat_channel_stepOf (q : Byte) {ch : Color → Byte} (h : IsChannel ch) :
    (ch (stepOf q)).toNat = (ch (expand q)).toNat / 80 + 1 := by
  rw [← chanStep_toNat]
  rcases h with rfl | rfl | rfl <;> simp

theorem toNat_channel_stepOf_pos (q : Byte) {ch : Color → Byte} (h : IsChannel ch) : 0 < (ch (stepOf q)).toNat := by
  rw [toNat_channel_stepOf q h]
  omega

/-- An expanded channel has at most its top three bits set. -/
theorem toNat_channel_expand_le (q : Byte) {ch : Color → Byte} (h : IsChannel ch) : (ch (expand q)).toNat ≤ 0xE0 := by
  revert q
  rcases h with rfl | rfl | rfl <;> decide

/-- Settles O17: a channel of at most 224 has a step of at most 3. -/
theorem stepSizes : Obligations.StepSizes := by
  refine fun q => ⟨fun ch hmem => ?_, fun hblack => if_pos hblack⟩
  have hch := mem_channels_iff.mp hmem
  have hstep := toNat_channel_stepOf q hch
  have hle := toNat_channel_expand_le q hch
  exact ⟨hstep, by omega, by omega⟩

/-! ## 40 R78: a step that is not complete moves -/

/-- Settles O20: a colour that a step leaves as it is has every channel on its bound, and so the leg is complete. -/
theorem incompleteLegMoves : Obligations.IncompleteLegMoves := by
  intro d q c hincomplete hsame
  refine Bool.false_ne_true (hincomplete.symm.trans ?_)
  have hstay := color_eq_iff.mp hsame
  cases d with
  | inc =>
    refine (legStep_inc_complete q c).mpr fun ch hch => ?_
    have hnew := (legStep_inc_channel q c hch).symm.trans (hstay ch hch)
    split at hnew <;> omega
  | dec =>
    refine (legStep_dec_complete q c).mpr fun ch hch => ?_
    have hnew := (legStep_dec_channel q c hch).symm.trans (hstay ch hch)
    omega

/-! ## 40 R84: CAPSTEP -/

/-- CAPSTEP of an existing pixel: one step of its leg, LIVE entry `p` alone written, and the frame (40 R78, R84). -/
theorem exec_capstep_of_lt {s : State} {p : Pix} {d : Direction} (hp : p.toNat < s.cfg.pixels)
    (hdir : s.dirOf p.toNat = d) :
    let leg := legStep d (s.targetOf p.toNat) (s.liveOf p.toNat)
    ∃ t, exec (.capstep p) s = .next t ∧ t.resp = some (bitResp leg.2) ∧
      t.liveOf p.toNat = leg.1 ∧ (∀ a, a ≠ p.toNat → readMem t.live a = readMem s.live a) ∧
      t.livePort = s.livePort ++ [.read p.toNat, .write p.toNat leg.1] ∧
      t.fading = s.fading ∧ t.dir = s.dir ∧ t.target = s.target ∧ SameRegisters s t := by
  subst hdir
  rw [exec, execCapstep, onPixel_of_lt hp, applyStep_eq]
  exact ⟨_, rfl, rfl, readMem_writeMem_self .., fun _ ha => readMem_writeMem_ne _ _ ha, rfl, rfl, rfl, rfl,
    rfl, rfl, rfl, rfl, rfl, rfl⟩

/-- Settles O18: channel by channel, an increasing step; a channel short of its bound is below it. -/
theorem capstepIncreasing : Obligations.CapstepIncreasing := by
  intro s p hp hdir
  obtain ⟨t, hexec, hresp, hframe⟩ := exec_capstep_of_lt hp hdir
  refine ⟨t, _, _, hexec, hresp, ⟨fun ch hmem => ?_, ?_⟩, hframe⟩
  · have hch := mem_channels_iff.mp hmem
    rw [legStep_inc_channel _ _ hch, ← toNat_channel_stepOf _ hch]
    refine ⟨rfl, ?_⟩
    dsimp only
    split <;> omega
  · rw [legStep_inc_complete]
    refine forall_congr' fun ch => imp_congr_ctx mem_channels_iff.symm fun hmem => ?_
    rw [legStep_inc_channel _ _ (mem_channels_iff.mp hmem)]
    dsimp only
    split <;> omega

/-- Settles O19: channel by channel, a decreasing step; a channel no larger than its step goes to 0. -/
theorem capstepDecreasing : Obligations.CapstepDecreasing := by
  intro s p hp hdir
  obtain ⟨t, hexec, hresp, hframe⟩ := exec_capstep_of_lt hp hdir
  refine ⟨t, _, _, hexec, hresp, fun ch hmem => ?_, ?_, hframe⟩
  · have hch := mem_channels_iff.mp hmem
    rw [legStep_dec_channel _ _ hch, toNat_channel_stepOf _ hch]
    split <;> omega
  · rw [legStep_dec_complete, color_eq_iff]
    refine forall_congr' fun ch => forall_congr' fun hch => ?_
    rw [legStep_dec_channel _ _ hch, toNat_channel_zero hch]
    omega

/-! ## 40 R81: the legs as numbers -/

/-- Each channel after `k` steps of an increasing leg: up by `k` steps, to its target at most, and never down. -/
theorem legSteps_inc_channel (q : Byte) (k : Nat) (c : Color) {ch : Color → Byte} (h : IsChannel ch) :
    (ch (legSteps .inc q k c)).toNat =
      max (ch c).toNat (min (ch (expand q)).toNat ((ch c).toNat + k * (ch (stepOf q)).toNat)) := by
  induction k with
  | zero => simp [legSteps]
  | succ k ih =>
    rw [legSteps, legStep_inc_channel q _ h, ← toNat_channel_stepOf q h, ih, Nat.succ_mul]
    split <;> omega

/-- Each channel after `k` steps of a decreasing leg. -/
theorem legSteps_dec_channel (q : Byte) (k : Nat) (c : Color) {ch : Color → Byte} (h : IsChannel ch) :
    (ch (legSteps .dec q k c)).toNat = (ch c).toNat - k * (ch (stepOf q)).toNat := by
  induction k with
  | zero => simp [legSteps]
  | succ k ih => rw [legSteps, legStep_dec_channel q _ h, ← toNat_channel_stepOf q h, ih, Nat.succ_mul, Nat.sub_sub]

/-- When step `k + 1` of an increasing leg completes it. -/
theorem legSteps_inc_complete (q : Byte) (k : Nat) (c : Color) :
    (legStep .inc q (legSteps .inc q k c)).2 = true ↔
      ∀ ch, IsChannel ch → (ch (expand q)).toNat ≤ (ch c).toNat + (k + 1) * (ch (stepOf q)).toNat := by
  rw [legStep_inc_complete]
  refine forall_congr' fun ch => forall_congr' fun hch => ?_
  rw [legSteps_inc_channel q k c hch, ← toNat_channel_stepOf q hch, Nat.succ_mul]
  omega

/-- When step `k + 1` of a decreasing leg completes it. -/
theorem legSteps_dec_complete (q : Byte) (k : Nat) (c : Color) :
    (legStep .dec q (legSteps .dec q k c)).2 = true ↔
      ∀ ch, IsChannel ch → (ch c).toNat ≤ (k + 1) * (ch (stepOf q)).toNat := by
  rw [legStep_dec_complete]
  refine forall_congr' fun ch => forall_congr' fun hch => ?_
  rw [legSteps_dec_channel q k c hch, ← toNat_channel_stepOf q hch, Nat.succ_mul]
  omega

/-- A decreasing leg that is complete is black. -/
theorem legStep_dec_of_complete {q : Byte} {c : Color} (h : (legStep .dec q c).2 = true) :
    legStep .dec q c = (0, true) := by
  refine Prod.ext (color_eq_iff.mpr fun ch hch => ?_) h
  rw [legStep_dec_channel q c hch, toNat_channel_zero hch]
  exact Nat.sub_eq_zero_of_le ((legStep_dec_complete q c).mp h ch hch)

/-- An increasing leg that is complete has each channel at the larger of target and current. -/
theorem legStep_inc_of_complete {q : Byte} {c d : Color} (h : (legStep .inc q c).2 = true)
    (hd : ∀ ch, IsChannel ch → (ch d).toNat = max (ch (expand q)).toNat (ch c).toNat) : legStep .inc q c = (d, true) := by
  refine Prod.ext (color_eq_iff.mpr fun ch hch => ?_) h
  rw [legStep_inc_channel q c hch, hd ch hch, if_pos ((legStep_inc_complete q c).mp h ch hch)]

/-! ## 40 R81: legs of 64 steps -/

/-- A reachable target's channel is 0, or 64 of its steps. -/
theorem channel_expand_of_reachable {q : Byte} (h : q &&& 0x24 = 0) {ch : Color → Byte} (hch : IsChannel ch) :
    (ch (expand q)).toNat = 0 ∨ (ch (expand q)).toNat = 64 * (ch (stepOf q)).toNat := by
  rw [toNat_channel_stepOf q hch]
  revert q
  rcases hch with rfl | rfl | rfl <;> decide

/-- A reachable target that is not black has a channel that is not black. -/
theorem exists_channel_expand_ne_zero {q : Byte} (h : q &&& 0x24 = 0) (hq : q ≠ 0) :
    ∃ ch, IsChannel ch ∧ (ch (expand q)).toNat ≠ 0 := by
  by_contra! hblack
  have : expand q = 0 := color_eq_iff.mpr fun ch hch => (hblack ch hch).trans (toNat_channel_zero hch).symm
  exact hq ((reduce_expand_of_reachable h).symm.trans (congrArg reduce this))

/-- The distance to a reachable target that is not black is 64 steps, neither more nor fewer. -/
theorem channels_expand_le_mul_iff {q : Byte} (h : q &&& 0x24 = 0) (hq : q ≠ 0) (n : Nat) :
    (∀ ch, IsChannel ch → (ch (expand q)).toNat ≤ n * (ch (stepOf q)).toNat) ↔ 64 ≤ n := by
  refine ⟨fun hle => ?_, fun hn ch hch => ?_⟩
  · obtain ⟨ch, hch, hne⟩ := exists_channel_expand_ne_zero h hq
    have hmul := (channel_expand_of_reachable h hch).resolve_left hne ▸ hle ch hch
    exact Nat.le_of_mul_le_mul_right hmul (toNat_channel_stepOf_pos q hch)
  · rcases channel_expand_of_reachable h hch with hzero | hmul
    · omega
    · exact hmul ▸ Nat.mul_le_mul_right _ hn

/-- Step `k + 1` of the increasing leg from black to a reachable target that is not black. -/
theorem inc_from_black_complete_iff {q : Byte} (h : q &&& 0x24 = 0) (hq : q ≠ 0) (k : Nat) :
    (legStep .inc q (legSteps .inc q k 0)).2 = true ↔ 63 ≤ k := by
  rw [legSteps_inc_complete, ← Nat.succ_le_succ_iff, ← channels_expand_le_mul_iff h hq]
  refine forall_congr' fun ch => forall_congr' fun hch => ?_
  rw [toNat_channel_zero hch, Nat.zero_add]

/-- Step `k + 1` of the decreasing leg from a reachable target that is not black. -/
theorem dec_from_target_complete_iff {q : Byte} (h : q &&& 0x24 = 0) (hq : q ≠ 0) (k : Nat) :
    (legStep .dec q (legSteps .dec q k (expand q))).2 = true ↔ 63 ≤ k := by
  rw [legSteps_dec_complete, channels_expand_le_mul_iff h hq]
  omega

theorem inc_from_black_at_63 {q : Byte} (h : q &&& 0x24 = 0) (hq : q ≠ 0) :
    legStep .inc q (legSteps .inc q 63 0) = (expand q, true) := by
  refine legStep_inc_of_complete ((inc_from_black_complete_iff h hq 63).mpr (Nat.le_refl _)) fun ch hch => ?_
  rw [legSteps_inc_channel q 63 0 hch, toNat_channel_zero hch]
  omega

theorem dec_from_target_at_63 {q : Byte} (h : q &&& 0x24 = 0) (hq : q ≠ 0) :
    legStep .dec q (legSteps .dec q 63 (expand q)) = (0, true) :=
  legStep_dec_of_complete ((dec_from_target_complete_iff h hq 63).mpr (Nat.le_refl _))

/-- Toward black every channel is on its bound already. -/
theorem legStep_inc_black (c : Color) : legStep .inc 0 c = (c, true) := by
  have hmax : ∀ ch, IsChannel ch → (ch c).toNat = max (ch (expand 0)).toNat (ch c).toNat := fun ch hch => by
    have : (ch (expand 0)).toNat = 0 := toNat_channel_zero hch
    omega
  refine legStep_inc_of_complete ((legStep_inc_complete 0 c).mpr fun ch hch => ?_) hmax
  rw [← hmax ch hch]
  omega

/-- Settles O21: both legs are 64 steps of each channel that moves. -/
theorem legsTakeSixtyFourSteps : Obligations.LegsTakeSixtyFourSteps := by
  refine ⟨fun q h hq => ⟨fun k hk => ?_, inc_from_black_at_63 h hq, fun k hk => ?_, dec_from_target_at_63 h hq⟩,
    legStep_inc_black⟩
  · exact Bool.eq_false_iff.mpr fun hc => Nat.not_lt.mpr ((inc_from_black_complete_iff h hq k).mp hc) hk
  · exact Bool.eq_false_iff.mpr fun hc => Nat.not_lt.mpr ((dec_from_target_complete_iff h hq k).mp hc) hk

/-! ## 40 R81, 42 R112: the length of a decreasing leg -/

theorem downLength_pos (q : Byte) (c : Color) : 1 ≤ downLength q c := Nat.le_max_left _ _

/-- A decreasing leg's length is the least number of steps, at least one, that covers every channel. -/
theorem downLength_le_iff (q : Byte) (c : Color) {n : Nat} (hn : 1 ≤ n) :
    downLength q c ≤ n ↔ ∀ ch, IsChannel ch → (ch c).toNat ≤ n * (ch (stepOf q)).toNat := by
  have hlane (ch : Color → Byte) (hch : IsChannel ch) :
      ((ch c).toNat + (ch (stepOf q)).toNat - 1) / (ch (stepOf q)).toNat ≤ n ↔
        (ch c).toNat ≤ n * (ch (stepOf q)).toNat := by
    rw [← Nat.ceilDiv_eq_add_pred_div, ceilDiv_le_iff_le_mul (toNat_channel_stepOf_pos q hch), Nat.mul_comm]
  simp only [downLength, max_le_iff, hn, true_and, forall_eq_or_imp, forall_eq, hlane red (.inl rfl),
    hlane green (.inr (.inl rfl)), hlane blue (.inr (.inr rfl))]

/-- Step `k + 1` of a decreasing leg completes it when its length is reached. -/
theorem legSteps_dec_complete_iff_downLength_le (q : Byte) (k : Nat) (c : Color) :
    (legStep .dec q (legSteps .dec q k c)).2 = true ↔ downLength q c ≤ k + 1 := by
  rw [legSteps_dec_complete, downLength_le_iff q c (Nat.le_add_left 1 k)]

/-- Settles O22: the leg is complete exactly from its length on, and no channel needs more than 255 steps of 1. -/
theorem decreasingLegLength : Obligations.DecreasingLegLength := by
  refine fun q c => ⟨fun k hk => ?_, legStep_dec_of_complete ?_, (downLength_le_iff q c (by decide)).mpr fun ch hch => ?_⟩
  · exact Bool.eq_false_iff.mpr fun hc => Nat.not_lt.mpr ((legSteps_dec_complete_iff_downLength_le q k c).mp hc) hk
  · rw [legSteps_dec_complete_iff_downLength_le, Nat.sub_add_cancel (downLength_pos q c)]
  · have hpos := toNat_channel_stepOf_pos q hch
    omega

/-! ## 42 R101, R103, R110: a run of eligible ticks -/

/-- With the deadline of a tick at `now`, a tick less than 2^31 ms later is eligible from 10 ms on (42 R110). -/
theorem isEligible_add_fadeInterval {now later : Time} (h : (later - now).toNat < 2 ^ 31) :
    isEligible later (now + fadeInterval) = true ↔ 10 ≤ (later - now).toNat := by
  have hinterval : fadeInterval.toNat = 10 := rfl
  rw [isEligible, decide_eq_true_eq, ← BitVec.sub_sub, BitVec.toNat_sub _ fadeInterval, hinterval]
  omega

/-- The clock values are those of ticks each eligible at its turn, from the deadline `nextt` on (42 R101, R103). -/
def EligibleRun : Time → List Time → Prop
  | _, [] => True
  | nextt, now :: nows => isEligible now nextt = true ∧ EligibleRun (now + fadeInterval) nows

theorem EligibleRun.of_spacedFrom {now : Time} {nows : List Time} (h : spacedFrom now nows) :
    EligibleRun (now + fadeInterval) nows := by
  induction nows generalizing now with
  | nil => trivial
  | cons later nows ih =>
    obtain ⟨hmin, hmax, hrest⟩ := h
    exact ⟨(isEligible_add_fadeInterval hmax).mpr hmin, ih hrest⟩

theorem execAll_cons_of_next {i : Instr} {is : List Instr} {s t : State} (h : exec i s = .next t) :
    execAll (i :: is) s = execAll is t := by
  rw [execAll, h]

/-- An eligible tick as one existing pixel and the tick's own registers see it. -/
theorem exec_tick_pixel {s : State} {now : Time} (h : isEligible now s.nextt = true) {p : Nat} (hp : p < s.cfg.pixels) :
    ∃ t, exec (.tick now) s = .next t ∧ t.pixel p = (s.pixel p).ticked s.fadeInOnly ∧
      t.fadeInOnly = s.fadeInOnly ∧ t.cfg = s.cfg ∧ t.nextt = now + fadeInterval := by
  obtain ⟨-, hframe, hpix, -⟩ := scanPixels_beginTick s now
  exact ⟨_, exec_tick_eligible h, (hpix p).trans (if_pos hp), hframe.fadeInOnly, hframe.cfg, hframe.nextt⟩

/-- A run of eligible ticks carries each existing pixel through as many ticks of its own, and leaves the rest of the run
to be made. -/
theorem execAll_ticks {nows later : List Time} {s : State} {p : Nat} (hp : p < s.cfg.pixels)
    (h : EligibleRun s.nextt (nows ++ later)) :
    ∃ t, execAll (nows.map .tick) s = .next t ∧ t.pixel p = (Pixel.ticked s.fadeInOnly)^[nows.length] (s.pixel p) ∧
      t.fadeInOnly = s.fadeInOnly ∧ t.cfg = s.cfg ∧ EligibleRun t.nextt later := by
  induction nows generalizing s with
  | nil => exact ⟨s, rfl, rfl, rfl, rfl, h⟩
  | cons now nows ih =>
    obtain ⟨heligible, hrest⟩ := h
    obtain ⟨t, hexec, hpixel, hmode, hcfg, hnextt⟩ := exec_tick_pixel heligible hp
    obtain ⟨u, hexecs, hpixels, hmodes, hcfgs, hlater⟩ := ih (hcfg ▸ hp) (hnextt ▸ hrest)
    refine ⟨u, (execAll_cons_of_next hexec).trans hexecs, ?_, hmodes.trans hmode, hcfgs.trans hcfg, hlater⟩
    rw [hpixels, hmode, hpixel]
    rfl

/-! ## 42 R105, R106: a fading pixel through its leg -/

/-- As long as its leg is not complete, a fading pixel only changes its colour. -/
theorem iterate_ticked_of_incomplete (f : Bool) {d : Direction} {q : Byte} {c : Color} {n : Nat}
    (h : ∀ k < n, (legStep d q (legSteps d q k c)).2 = false) :
    (Pixel.ticked f)^[n] ⟨true, d, q, c⟩ = ⟨true, d, q, legSteps d q n c⟩ := by
  induction n with
  | zero => rfl
  | succ n ih =>
    rw [Function.iterate_succ_apply', ih fun k hk => h k (Nat.lt_succ_of_lt hk)]
    simp [Pixel.ticked, h n (Nat.lt_succ_self n), legSteps]

/-- 64 ticks on a pixel that begins to fade toward a reachable target that is not black. -/
theorem iterate_ticked_64_up (f : Bool) {q : Byte} (h : q &&& 0x24 = 0) (hq : q ≠ 0) :
    (Pixel.ticked f)^[64] ⟨true, .inc, q, 0⟩ =
      if f then ⟨false, .inc, q, expand q⟩ else ⟨true, .dec, q, expand q⟩ := by
  obtain ⟨hlegs, -⟩ := legsTakeSixtyFourSteps
  obtain ⟨hincomplete, hend, -⟩ := hlegs q h hq
  rw [Function.iterate_succ_apply', iterate_ticked_of_incomplete f hincomplete]
  simp only [Pixel.ticked, hend, if_true]

/-- 64 ticks on a pixel that begins to go down from such a target. -/
theorem iterate_ticked_64_down (f : Bool) {q : Byte} (h : q &&& 0x24 = 0) (hq : q ≠ 0) :
    (Pixel.ticked f)^[64] ⟨true, .dec, q, expand q⟩ = ⟨false, .dec, q, 0⟩ := by
  obtain ⟨hlegs, -⟩ := legsTakeSixtyFourSteps
  obtain ⟨-, -, hincomplete, hend⟩ := hlegs q h hq
  rw [Function.iterate_succ_apply', iterate_ticked_of_incomplete f hincomplete]
  simp only [Pixel.ticked, hend, if_true]

/-! ## 41 R93, 42 R113: a fade, from SETFADING to its end -/

theorem exec_setfading_of_lt {s : State} {p : Pix} (hp : p.toNat < s.cfg.pixels) (color : Color) :
    exec (.setfading p color) s = .next ((startFade s p.toNat color).respond 0) :=
  congrArg Host.Outcome.next (onPixel_of_lt hp _)

/-- A fade starts from black, upward, toward the quantized colour (41 R93). -/
theorem startFade_pixel (s : State) (p : Nat) (color : Color) :
    (startFade s p color).pixel p = ⟨true, .inc, reduce color, 0⟩ := by
  simp [startFade, State.pixel]

/-- Settles O40: SETFADING starts the pixel's increasing leg, and each run of 64 ticks is the whole of a leg. -/
theorem fadeReachesItsTargetIn64Ticks : Obligations.FadeReachesItsTargetIn64Ticks := by
  intro s p c first ups downs hp hcolor hfirst hspaced hups hdowns
  have hreachable := reduce_and_0x24 c
  obtain ⟨t, hexec, hpixel, hmode, hcfg, hrun⟩ := execAll_ticks (nows := first :: ups) (later := downs)
    (s := (startFade s p.toNat c).respond 0) (p := p.toNat) hp ⟨hfirst, .of_spacedFrom hspaced⟩
  have hup : t.pixel p.toNat =
      if s.fadeInOnly then ⟨false, .inc, reduce c, expand (reduce c)⟩ else ⟨true, .dec, reduce c, expand (reduce c)⟩ := by
    rw [← iterate_ticked_64_up s.fadeInOnly hreachable hcolor, ← startFade_pixel s p.toNat c, hpixel, List.length_cons,
      hups]
    rfl
  refine ⟨t, (execAll_cons_of_next (exec_setfading_of_lt hp c)).trans hexec, ?_, fun hf => ?_, fun hf => ?_⟩
  · rw [← expand_reduce c]
    split at hup <;> exact congrArg Pixel.live hup
  · rw [hf] at hup
    exact congrArg Pixel.fading hup
  · rw [hf] at hup
    obtain ⟨u, hexec', hpixel', -⟩ := execAll_ticks (p := p.toNat) (hcfg ▸ hp) (by rwa [List.append_nil])
    rw [hup, hdowns, if_neg Bool.false_ne_true, iterate_ticked_64_down _ hreachable hcolor] at hpixel'
    exact ⟨congrArg Pixel.fading hup, congrArg Pixel.dir hup, u, hexec', congrArg Pixel.fading hpixel',
      congrArg Pixel.live hpixel'⟩

end Sys2Proof.Machine

/-! # 41: fade control

What SETFADING, STOPFADING, FRESET and SETFADEMODE write and leave alone (41 R93 to R96), and the operations that do
nothing: NOP and the reserved opcodes (41 R92, R97), and any operation on a pixel number out of range (41 R91). -/

namespace Sys2Proof.Machine

/-! ## 41 R93: SETFADING -/

/-- The start of a fade is confined to its pixel. -/
theorem startFade_pixel_ne (s : State) {p q : Nat} (color : Color) (h : q ≠ p) :
    (startFade s p color).pixel q = s.pixel q := by
  simp [startFade, State.pixel, h]

/-- Settles O25: the pixel is the one `startFade_pixel` gives, and each space is written at that pixel's place only. -/
theorem setfadingStartsAFade : Obligations.SetfadingStartsAFade := by
  intro s p c hp
  have hpixel := startFade_pixel s p.toNat c
  have htarget : (startFade s p.toNat c).targetOf p.toNat = reduce c := congrArg Pixel.target hpixel
  refine ⟨_, exec_setfading_of_lt hp c, rfl, congrArg Pixel.fading hpixel, congrArg Pixel.dir hpixel, htarget, ?_,
    congrArg Pixel.live hpixel, fun q hq => startFade_pixel_ne s c hq, fun a ha => ⟨?_, ?_⟩, fun a ha => ⟨?_, ?_⟩, rfl,
    ⟨rfl, rfl, rfl, rfl, rfl, rfl⟩⟩
  · exact (congrArg expand htarget).trans (expand_reduce c)
  · exact readMem_putBit_ne s.fading _ _ ha
  · exact readMem_putBit_ne s.dir _ _ ha
  · exact readMem_writeMem_ne s.target _ ha
  · exact readMem_writeMem_ne s.live 0 ha

/-! ## 41 R94: STOPFADING -/

theorem exec_stopfading_of_lt {s : State} {p : Pix} (hp : p.toNat < s.cfg.pixels) :
    exec (.stopfading p) s = .next ((s.setFading p.toNat false).respond 0) :=
  congrArg Host.Outcome.next (onPixel_of_lt hp _)

/-- Settles O26: one packed bit is written, which leaves every other bit and every other byte of FADING alone. -/
theorem stopfadingClearsTheBit : Obligations.StopfadingClearsTheBit := by
  intro s p hp
  exact ⟨_, exec_stopfading_of_lt hp, rfl, getBit_putBit_self .., fun q hq => getBit_putBit_ne _ _ hq,
    fun a ha => readMem_putBit_ne _ _ _ ha, rfl, rfl, rfl, rfl, ⟨rfl, rfl, rfl, rfl, rfl, rfl⟩⟩

/-! ## 41 R95: FRESET -/

/-- The direction of any pixel number after FRESET's scan over the pixels below `n`. -/
theorem dirOf_turnDown_scan (s : State) (n p : Nat) :
    (forPixels n turnDown s).dirOf p = if p < n ∧ s.isFading p then .dec else s.dirOf p := by
  obtain ⟨d, hscan, hbit, -⟩ := turnDown_scan s n
  rw [hscan, State.dirOf, hbit]
  split <;> rfl

/-- Settles O27: the scan writes DIR only, and turns down the fading pixels below N. -/
theorem fresetTurnsFadingPixelsDown : Obligations.FresetTurnsFadingPixelsDown := by
  intro s
  have hdir := dirOf_turnDown_scan s s.cfg.pixels
  refine ⟨_, rfl, rfl, fun p hp => ?_, fun p hp => ?_, ?_⟩
  · simpa [hp] using hdir p
  · simpa [Nat.not_lt.mpr hp] using hdir p
  · obtain ⟨d, hscan, -⟩ := turnDown_scan s s.cfg.pixels
    rw [hscan]
    exact ⟨rfl, rfl, rfl, rfl, rfl, rfl, rfl, rfl, rfl, rfl⟩

/-! ## 41 R96: SETFADEMODE -/

/-- Settles O29: bit 0 of `data` is the operand that the step hands to the operation. -/
theorem setfademodeSetsTheBit : Obligations.SetfademodeSetsTheBit := by
  refine ⟨fun _ _ => rfl, fun s rest pix data => ?_⟩
  obtain ⟨-, -, -, -, -, hrun, -⟩ := operandsComeFromTheirFields s rest pix data
  exact hrun

/-! ## 41 R90 to R92, R97: the operations that do nothing -/

/-- Settles O23: the step runs the three opcodes without an operand, and each of them only answers. -/
theorem nopAndReservedDoNothing : Obligations.NopAndReservedDoNothing := by
  refine ⟨fun _ => ⟨rfl, rfl, rfl⟩, fun s rest pix data op hop => ?_⟩
  obtain ⟨hnop, -, -, -, -, -, -, -, -, -, -, -, -, -, hreservedE, hreservedF⟩ :=
    operandsComeFromTheirFields s rest pix data
  simp only [List.mem_cons, List.not_mem_nil, or_false] at hop
  obtain rfl | rfl | rfl := hop
  · exact hnop
  · exact hreservedE
  · exact hreservedF

/-- Settles O24: each of the five passes its pixel operand through `onPixel`, which drops it. -/
theorem outOfRangePixelIsDropped : Obligations.OutOfRangePixelIsDropped := by
  intro s p hp
  have hdrop (f : Nat → State) :
      (.next (onPixel s p f) : Host.Outcome State Fault Refusal) = .next { s with resp := some 0 } :=
    congrArg Host.Outcome.next (onPixel_of_ge hp f)
  exact ⟨fun _ => hdrop _, hdrop _, hdrop _, hdrop _, hdrop _⟩

end Sys2Proof.Machine

/-! # 42: TICK

The rate limiter (42 R101 to R103, R110), the scan as a map over pixels and its LIVE accesses (42 R104 to R106), the
response (42 R107, R108), the scan in any order (42 R111), and the life of one pixel (42 R109). -/

namespace Sys2Proof.Machine

/-! ## 42 R101, R102: the rate limiter -/

theorem tickResp_changed (changed eligible : Bool) (ext : Count) : (tickResp changed eligible ext).getLsbD 0 = changed :=
  getLsbD_tickResp changed eligible ext 0

theorem tickResp_eligible (changed eligible : Bool) (ext : Count) : (tickResp changed eligible ext).getLsbD 1 = eligible :=
  getLsbD_tickResp changed eligible ext 1

/-- Settles O30: bit 1 of the response is the test of the rate limiter, passed or not. -/
theorem tickEligibility : Obligations.TickEligibility := by
  intro s now
  rw [← isEligible_iff]
  cases he : isEligible now s.nextt with
  | true => exact ⟨_, _, exec_tick_eligible he, rfl, by rw [tickResp_eligible]⟩
  | false => exact ⟨_, _, exec_tick_ineligible he, rfl, by rw [tickResp_eligible]⟩

/-- Settles O31: the tick only answers, and the fields of its answer are those of TICK's layout. -/
theorem ineligibleTickWritesNothing : Obligations.IneligibleTickWritesNothing := by
  intro s now he
  exact ⟨_, exec_tick_ineligible he, tickResp_changed _ _ _, tickResp_eligible _ _ _, extractLsb'_tickResp _ _ _⟩

/-! ## 42 R103, R110: the registers of an eligible tick -/

/-- With no pixel fading the scan does not set `changed` and counts nothing. -/
theorem scanPixels_beginTick_of_none_fading {s : State} (now : Time) (h : ∀ p, p < s.cfg.pixels → s.isFading p = false) :
    (scanPixels (beginTick now s)).1 = false ∧ (scanPixels (beginTick now s)).2.extcnt = 0 := by
  obtain ⟨hchanged, -, -, hext, -⟩ := scanPixels_beginTick s now
  have hnone : s.countPixels (fun p => (s.pixel p).goesOut s.fadeInOnly) = s.countPixels fun _ => false :=
    s.countPixels_congr fun p hp => by simp [Pixel.goesOut, State.pixel, h p hp]
  constructor
  · rw [hchanged]
    simpa using h
  · rw [hext, hnone]
    simp [State.countPixels]

/-- Settles O32: the scan keeps the deadline that the tick begins by setting, and the registers outside its frame. -/
theorem eligibleTickRegisters : Obligations.EligibleTickRegisters := by
  intro s now he
  obtain ⟨-, hframe, -⟩ := scanPixels_beginTick s now
  refine ⟨_, exec_tick_eligible he, ?_, fun hnone => ?_, hframe.cfg, hframe.fadeInOnly, hframe.target, hframe.hostRead,
    hframe.host⟩
  · rw [State.respond_nextt, hframe.nextt]
    exact BitVec.toNat_add now fadeInterval
  · obtain ⟨hchanged, hext⟩ := scanPixels_beginTick_of_none_fading now hnone
    rw [hchanged, hext]
    exact ⟨hext, rfl⟩

/-- Settles O38: the deadline is `now + 10`, from which a tick within 2^31 ms is eligible from 10 ms on. -/
theorem eligibleTicksAreTenMsApart : Obligations.EligibleTicksAreTenMsApart := by
  intro s now he
  obtain ⟨-, hframe, -⟩ := scanPixels_beginTick s now
  refine ⟨_, exec_tick_eligible he, fun later hlater => ?_⟩
  rw [State.respond_nextt, hframe.nextt]
  exact isEligible_add_fadeInterval hlater

/-! ## 42 R104 to R106: an eligible tick seen from one pixel -/

/-- Settles O33: the scan gives every pixel number below N its own tick, and leaves the others. -/
theorem eligibleTickIsAMapOverPixels : Obligations.EligibleTickIsAMapOverPixels := by
  intro s now he
  obtain ⟨-, -, hpixel, -⟩ := scanPixels_beginTick s now
  exact ⟨_, exec_tick_eligible he, hpixel⟩

theorem Pixel.ticked_of_not_fading (f : Bool) {x : Pixel} (h : x.fading = false) : x.ticked f = x := by
  simp [Pixel.ticked, h]

/-- A tick on a fading pixel with its leg upward (42 R106). -/
theorem Pixel.ticked_up (f : Bool) (q : Byte) (c : Color) :
    Pixel.ticked f ⟨true, .inc, q, c⟩ =
      if (legStep .inc q c).2 then
        if f then ⟨false, .inc, q, (legStep .inc q c).1⟩ else ⟨true, .dec, q, (legStep .inc q c).1⟩
      else ⟨true, .inc, q, (legStep .inc q c).1⟩ := rfl

/-- A tick on a fading pixel with its leg downward (42 R106). -/
theorem Pixel.ticked_down (f : Bool) (q : Byte) (c : Color) :
    Pixel.ticked f ⟨true, .dec, q, c⟩ = ⟨!(legStep .dec q c).2, .dec, q, (legStep .dec q c).1⟩ := by
  cases h : (legStep .dec q c).2 <;> simp [Pixel.ticked, h]

/-- A tick steps the colour of a fading pixel once, whether or not the leg is then complete (42 R105). -/
theorem Pixel.live_ticked (f : Bool) {x : Pixel} (h : x.fading = true) :
    (x.ticked f).live = (legStep x.dir x.target x.live).1 := by
  obtain ⟨fading, dir, q, c⟩ := x
  cases h
  cases dir with
  | inc => rw [Pixel.ticked_up]; split_ifs <;> rfl
  | dec => rw [Pixel.ticked_down]

theorem Pixel.ticked_of_incomplete (f : Bool) {d : Direction} {q : Byte} {c : Color} (h : (legStep d q c).2 = false) :
    Pixel.ticked f ⟨true, d, q, c⟩ = ⟨true, d, q, (legStep d q c).1⟩ := by
  simp [Pixel.ticked, h]

theorem State.pixel_of_fading {s : State} {p : Nat} {d : Direction} (hf : s.isFading p = true) (hd : s.dirOf p = d) :
    s.pixel p = ⟨true, d, s.targetOf p, s.liveOf p⟩ := by
  rw [State.pixel, hf, hd]

/-- Settles O34: the pixel's own tick, for either direction of its leg. -/
theorem legCompletionPolicy : Obligations.LegCompletionPolicy := by
  intro s now p he hp hf
  obtain ⟨-, hframe, hall, -⟩ := scanPixels_beginTick s now
  have hpixel := (hall p).trans (if_pos hp)
  have hticked {d : Direction} (hd : s.dirOf p = d) : (scanPixels (beginTick now s)).2.pixel p =
      Pixel.ticked s.fadeInOnly ⟨true, d, s.targetOf p, s.liveOf p⟩ := State.pixel_of_fading hf hd ▸ hpixel
  refine ⟨_, exec_tick_eligible he, (congrArg Pixel.live hpixel).trans (Pixel.live_ticked s.fadeInOnly hf),
    congrArg (readMem · p) hframe.target, fun hleg => ?_, fun hleg hd hmode => ?_, fun hleg hd hmode => ?_, fun hleg hd => ?_⟩
  · have hstays := (hticked rfl).trans (Pixel.ticked_of_incomplete s.fadeInOnly hleg)
    exact ⟨congrArg Pixel.fading hstays, congrArg Pixel.dir hstays⟩
  · have hstops := (hticked hd).trans (Pixel.ticked_up ..)
    rw [if_pos (hd ▸ hleg), if_pos hmode] at hstops
    exact ⟨congrArg Pixel.fading hstops, congrArg Pixel.dir hstops⟩
  · have hturns := (hticked hd).trans (Pixel.ticked_up ..)
    rw [if_pos (hd ▸ hleg), hmode] at hturns
    exact ⟨congrArg Pixel.fading hturns, congrArg Pixel.dir hturns⟩
  · have hstops := (hticked hd).trans (Pixel.ticked_down ..)
    rw [hd] at hleg
    rw [hleg] at hstops
    exact ⟨congrArg Pixel.fading hstops, congrArg Pixel.dir hstops⟩

/-! ## 42 R104, R105: the LIVE accesses -/

/-- A pixel that is not fading has no accesses. -/
theorem flatMap_accesses (s : State) (order : List Nat) :
    order.flatMap (fun p => (s.pixel p).accesses p) =
      (order.filter s.isFading).flatMap (fun p => (s.pixel p).accesses p) := by
  induction order with
  | nil => rfl
  | cons p order ih =>
    cases hf : s.isFading p with
    | true => simp [hf, ih]
    | false =>
      have hnone : (s.pixel p).accesses p = [] := by simp [Pixel.accesses, State.pixel, hf]
      simp [hf, hnone, ih]

/-- Settles O37: the accesses of the fading pixels, each writing the colour its own tick leaves. -/
theorem eligibleTickLiveAccesses : Obligations.EligibleTickLiveAccesses := by
  intro s now he
  obtain ⟨-, -, hpixel, -, hport, -⟩ := scanPixels_beginTick s now
  refine ⟨_, exec_tick_eligible he, ?_⟩
  rw [State.respond_livePort, hport, flatMap_accesses]
  congr 1
  refine List.flatMap_congr fun p hp => ?_
  obtain ⟨hrange, hf⟩ := List.mem_filter.mp hp
  have hlive : (scanPixels (beginTick now s)).2.liveOf p = (legStep (s.dirOf p) (s.targetOf p) (s.liveOf p)).1 := by
    have hticked := (hpixel p).trans (if_pos (List.mem_range.mp hrange))
    exact (congrArg Pixel.live hticked).trans (Pixel.live_ticked s.fadeInOnly hf)
  rw [State.respond_liveOf, hlive]
  exact if_pos hf

/-! ## 42 R107, R108: the response -/

/-- A tick changes exactly the fading pixels: one whose leg ends stops or turns, one whose leg goes on changes its colour
(40 R78). -/
theorem Pixel.ticked_ne_iff (f : Bool) (x : Pixel) : x.ticked f ≠ x ↔ x.fading = true := by
  refine ⟨fun h => ?_, fun h hsame => ?_⟩
  · by_contra hf
    exact h (Pixel.ticked_of_not_fading f (Bool.eq_false_of_not_eq_true hf))
  · have hcolor : (legStep x.dir x.target x.live).1 = x.live :=
      (Pixel.live_ticked f h).symm.trans (congrArg Pixel.live hsame)
    have hcomplete : (legStep x.dir x.target x.live).2 = true := by
      by_contra hincomplete
      exact incompleteLegMoves _ _ _ (Bool.eq_false_of_not_eq_true hincomplete) hcolor
    obtain ⟨fading, dir, q, c⟩ := x
    cases h
    cases dir with
    | inc =>
      rw [Pixel.ticked_up, if_pos hcomplete] at hsame
      split at hsame <;> cases hsame
    | dec =>
      rw [Pixel.ticked_down, hcomplete] at hsame
      cases hsame

/-- Settles O36: `changed` is set by the fading pixels, which are those that the tick changes. -/
theorem eligibleTickResponse : Obligations.EligibleTickResponse := by
  intro s now he
  obtain ⟨hchanged, -, hpixel, -⟩ := scanPixels_beginTick s now
  have hbit : (tickResp (scanPixels (beginTick now s)).1 true (scanPixels (beginTick now s)).2.extcnt).getLsbD 0 = true ↔
      ∃ p, p < s.cfg.pixels ∧ s.isFading p = true := by
    rw [tickResp_changed, hchanged]
    simp
  refine ⟨_, _, exec_tick_eligible he, rfl, hbit, hbit.trans ?_, tickResp_eligible _ _ _, extractLsb'_tickResp _ _ _, ?_⟩
  · refine exists_congr fun p => and_congr_right fun hp => ?_
    have hticked := (hpixel p).trans (if_pos hp)
    exact hticked ▸ (Pixel.ticked_ne_iff s.fadeInOnly (s.pixel p)).symm
  · obtain ⟨r, hr, hunnamed⟩ := answersWithin_tickResp (State.respond_resp (scanPixels (beginTick now s)).2 _)
    cases hr
    exact hunnamed

/-! ## 42 R111: the scan in any order -/

/-- What visits of the pixels of `order`, each once and in any order, make of `(false, s)`. -/
structure Visited (s : State) (order : List Nat) (k : Bool × State) : Prop where
  changed : k.1 = order.any s.isFading
  frame : TickFrame s k.2
  pixel : ∀ q, k.2.pixel q = if q ∈ order then (s.pixel q).ticked s.fadeInOnly else s.pixel q
  extcnt : k.2.extcnt = s.extcnt + BitVec.ofNat 9 (order.filter fun q => (s.pixel q).goesOut s.fadeInOnly).length
  livePort : k.2.livePort = s.livePort ++ order.flatMap fun q => (s.pixel q).accesses q
  spaces : (∀ p ∈ order, p < s.cfg.pixels) → SpacesOK s → SpacesOK k.2

namespace Visited

variable {s : State} {order order' : List Nat} {k k' : Bool × State}

theorem start (s : State) : Visited s [] (false, s) where
  changed := rfl
  frame := ⟨rfl, rfl, rfl, rfl, rfl, rfl, rfl⟩
  pixel := by simp
  extcnt := by simp
  livePort := by simp
  spaces := fun _ h => h

/-- A pixel not visited yet is as it was in `s`, so its visit makes of it what it would have made of it in `s`. -/
theorem visit (h : Visited s order k) {p : Nat} (hp : p ∉ order) : Visited s (order ++ [p]) (visitPixel p k) := by
  have hsame : k.2.pixel p = s.pixel p := (h.pixel p).trans (if_neg hp)
  have hfading : k.2.isFading p = s.isFading p := congrArg Pixel.fading hsame
  obtain ⟨vchanged, vframe, vpixel, vextcnt, vport, vspaces⟩ := visitPixel_spec p k.1 k.2
  rw [hsame, h.frame.fadeInOnly] at vpixel vextcnt
  rw [hsame] at vport
  exact {
    changed := by rw [vchanged, h.changed, hfading]; simp
    frame := h.frame.trans vframe
    pixel := fun q => by
      rw [vpixel, h.pixel]
      by_cases hq : q = p <;> simp [hq]
    extcnt := by
      rw [vextcnt, h.extcnt, List.filter_append, List.length_append, BitVec.ofNat_add, BitVec.add_assoc]
      cases hout : (s.pixel p).goesOut s.fadeInOnly <;> simp [hout]
    livePort := by rw [vport, h.livePort]; simp
    spaces := fun hlt hs => by
      refine vspaces ?_ (h.spaces (fun q hq => hlt q (List.mem_append_left _ hq)) hs)
      rw [h.frame.cfg]
      exact hlt p (by simp) }

theorem of_foldl (h : order.Nodup) : Visited s order (order.foldl (fun k p => visitPixel p k) (false, s)) := by
  induction order using List.reverseRecOn with
  | nil => exact start s
  | append_singleton order p ih =>
    obtain ⟨hp, hnodup⟩ := (List.nodup_concat order p).mp (List.concat_eq_append ▸ h)
    rw [List.foldl_concat]
    exact (ih hnodup).visit hp

/-- Visits of the same pixels in two orders make the same accesses. -/
theorem livePort_perm (h : Visited s order k) (h' : Visited s order' k') (hperm : order.Perm order') :
    k.2.livePort.Perm k'.2.livePort := by
  rw [h.livePort, h'.livePort]
  exact (hperm.flatMap_right _).append_left _

end Visited

/-- Two states with canonical spaces are the same but for the port, if both come from `s` by visits and agree in EXTCNT and
in every pixel. -/
theorem TickFrame.eq_but_livePort {s t u : State} (ht : TickFrame s t) (hu : TickFrame s u) (htok : SpacesOK t)
    (huok : SpacesOK u) (hext : t.extcnt = u.extcnt) (hpixel : ∀ p, t.pixel p = u.pixel p) :
    { t with livePort := [] } = { u with livePort := [] } := by
  have hfading : t.fading = u.fading := Memory.ext_of_wf htok.fading huok.fading fun a =>
    readMem_eq_of_getBit fun j _ => congrArg Pixel.fading (hpixel (8 * a + j))
  have hdir : t.dir = u.dir := Memory.ext_of_wf htok.dir huok.dir fun a =>
    readMem_eq_of_getBit fun j _ => getBit_eq_of_dirOf_eq (congrArg Pixel.dir (hpixel (8 * a + j)))
  have hlive : t.live = u.live := Memory.ext_of_wf htok.live huok.live fun a => congrArg Pixel.live (hpixel a)
  rw [State.mk.injEq]
  exact ⟨ht.cfg.trans hu.cfg.symm, hfading, hdir, ht.target.trans hu.target.symm, ht.fadeInOnly.trans hu.fadeInOnly.symm,
    hext, ht.nextt.trans hu.nextt.symm, hlive, ht.resp.trans hu.resp.symm, rfl, ht.hostRead.trans hu.hostRead.symm,
    ht.host.trans hu.host.symm⟩

/-- Settles O39: what visits make of a state depends on the order through the order of the accesses only. -/
theorem scanOrderDoesNotMatter : Obligations.ScanOrderDoesNotMatter := by
  intro s order hs hperm k
  have h : Visited s order k := .of_foldl (hperm.nodup_iff.mpr List.nodup_range)
  have h' : Visited s (List.range s.cfg.pixels) (scanPixels s) := by
    rw [scanPixels, forPixels_eq_foldl]
    exact .of_foldl List.nodup_range
  refine ⟨?_, h.livePort_perm h' hperm, h.frame.eq_but_livePort h'.frame (h.spaces ?_ hs.spacesOK)
    (h'.spaces ?_ hs.spacesOK) ?_ fun p => ?_⟩
  · rw [h.changed, h'.changed, hperm.any_eq]
  · exact fun p hp => List.mem_range.mp (hperm.mem_iff.mp hp)
  · exact fun p => List.mem_range.mp
  · rw [h.extcnt, h'.extcnt, (hperm.filter _).length_eq]
  · simp only [h.pixel, h'.pixel, hperm.mem_iff]

/-! ## 42 R109: the life of one pixel -/

/-- The phase of a pixel is read off its fading bit and its direction. -/
theorem Pixel.phase_congr {x y : Pixel} (hf : x.fading = y.fading) (hd : x.dir = y.dir) : x.phase = y.phase := by
  rw [Pixel.phase, hf, hd]
  rfl

theorem Pixel.phase_eq_idle_iff {x : Pixel} : x.phase = .idle ↔ x.fading = false := by
  obtain ⟨fading, dir, -, -⟩ := x
  cases fading <;> cases dir <;> simp [Pixel.phase]

theorem Pixel.phase_eq_up_iff {x : Pixel} : x.phase = .up ↔ x.fading = true ∧ x.dir = .inc := by
  obtain ⟨fading, dir, -, -⟩ := x
  cases fading <;> cases dir <;> simp [Pixel.phase]

theorem Pixel.phase_eq_down_iff {x : Pixel} : x.phase = .down ↔ x.fading = true ∧ x.dir = .dec := by
  obtain ⟨fading, dir, -, -⟩ := x
  cases fading <;> cases dir <;> simp [Pixel.phase]

theorem Pixel.phase_ticked_of_idle (f : Bool) {x : Pixel} (h : x.phase = .idle) : (x.ticked f).phase = .idle := by
  rw [Pixel.ticked_of_not_fading f (Pixel.phase_eq_idle_iff.mp h), h]

theorem Pixel.phase_ticked_of_up (f : Bool) {x : Pixel} (h : x.phase = .up) : (x.ticked f).phase =
    if (legStep .inc x.target x.live).2 then (if f then .idle else .down) else .up := by
  obtain ⟨fading, dir, q, c⟩ := x
  obtain ⟨rfl, rfl⟩ := Pixel.phase_eq_up_iff.mp h
  rw [Pixel.ticked_up]
  split_ifs <;> rfl

theorem Pixel.phase_ticked_of_down (f : Bool) {x : Pixel} (h : x.phase = .down) : (x.ticked f).phase =
    if (legStep .dec x.target x.live).2 then .idle else .down := by
  obtain ⟨fading, dir, q, c⟩ := x
  obtain ⟨rfl, rfl⟩ := Pixel.phase_eq_down_iff.mp h
  rw [Pixel.ticked_down]
  cases (legStep .dec q c).2 <;> rfl

/-- How far a pixel is from the end of its fade: only SETFADING leads to a higher rank (42 R109). -/
def Phase.rank : Phase → Nat
  | .idle => 0
  | .down => 1
  | .up => 2

theorem Phase.eq_up_of_rank_le {a : Phase} (h : Phase.up.rank ≤ a.rank) : a = .up := by
  cases a <;> simp_all [Phase.rank]

theorem Phase.eq_idle_of_rank_le {a : Phase} (h : a.rank ≤ Phase.idle.rank) : a = .idle := by
  cases a <;> simp_all [Phase.rank]

theorem Pixel.rank_phase_ticked_le (f : Bool) (x : Pixel) : (x.ticked f).phase.rank ≤ x.phase.rank := by
  cases hx : x.phase with
  | idle => rw [Pixel.phase_ticked_of_idle f hx]
  | up => rw [Pixel.phase_ticked_of_up f hx]; split_ifs <;> decide
  | down => rw [Pixel.phase_ticked_of_down f hx]; split_ifs <;> decide

theorem rank_phaseAfter_le {i : Instr} {p : Nat} (h : ¬ ∃ (q : Pix) (c : Color), i = .setfading q c ∧ q.toNat = p)
    (a : Phase) : (phaseAfter i p a).rank ≤ a.rank := by
  cases i with
  | setfading q c =>
    have hq : q.toNat ≠ p := fun hq => h ⟨q, c, rfl, hq⟩
    rw [phaseAfter, if_neg hq]
  | stopfading q =>
    rw [phaseAfter]
    split
    · exact Nat.zero_le _
    · exact Nat.le_refl _
  | freset => cases a <;> simp [phaseAfter, Phase.rank]
  | _ => exact Nat.le_refl _

/-- An operation keeps a pixel's phase if it does so where its operand exists: otherwise it is dropped (41 R91). -/
theorem onPixel_phase {s : State} {f : Nat → State} {q : Pix} {p : Nat}
    (h : ((f q.toNat).pixel p).phase = (s.pixel p).phase) : ((onPixel s q f).pixel p).phase = (s.pixel p).phase := by
  by_cases hq : q.toNat < s.cfg.pixels
  · rw [onPixel_of_lt hq, h]
  · rw [onPixel_of_ge (Nat.not_lt.mp hq)]
    rfl

/-- FRESET turns a fading pixel down (41 R95). -/
theorem phase_turnDown_scan {s : State} {n p : Nat} (hp : p < n) :
    ((forPixels n turnDown s).pixel p).phase = if (s.pixel p).phase = .up then .down else (s.pixel p).phase := by
  have hdir : (forPixels n turnDown s).dirOf p = if s.isFading p then .dec else s.dirOf p := by
    simpa [hp] using dirOf_turnDown_scan s n p
  have hfading : (forPixels n turnDown s).isFading p = s.isFading p := by
    obtain ⟨d, hscan, -⟩ := turnDown_scan s n
    rw [hscan]
    rfl
  cases hf : s.isFading p with
  | false => simp [Pixel.phase, State.pixel, hfading, hf]
  | true => cases hd : s.dirOf p <;> simp [Pixel.phase, State.pixel, hfading, hdir, hf, hd]

/-- What an eligible tick answers holds the pixel's own tick. -/
theorem exec_tick_next_pixel {s t : State} {now : Time} {p : Nat} (hp : p < s.cfg.pixels)
    (he : isEligible now s.nextt = true) (h : exec (.tick now) s = .next t) :
    t.pixel p = (s.pixel p).ticked s.fadeInOnly := by
  obtain ⟨u, hu, hpixel, -⟩ := exec_tick_pixel he hp
  cases hu.symm.trans h
  exact hpixel

/-- What an operation can do to the phase of an existing pixel: it follows the table, or it is an eligible tick. -/
theorem exec_next_phase {i : Instr} {s t : State} {p : Nat} (hp : p < s.cfg.pixels) (h : exec i s = .next t) :
    (t.pixel p).phase = phaseAfter i p (s.pixel p).phase ∨
      ∃ now, i = .tick now ∧ isEligible now s.nextt = true ∧ t.pixel p = (s.pixel p).ticked s.fadeInOnly := by
  cases i with
  | tick now =>
    cases he : isEligible now s.nextt with
    | true => exact .inr ⟨now, rfl, he, exec_tick_next_pixel hp he h⟩
    | false =>
      cases (exec_tick_ineligible he).symm.trans h
      exact .inl rfl
  | setfading q c =>
    refine .inl ?_
    by_cases hq : q.toNat = p
    · subst hq
      cases (exec_setfading_of_lt hp c).symm.trans h
      exact (congrArg Pixel.phase (startFade_pixel s q.toNat c)).trans (if_pos rfl).symm
    · cases h
      refine (onPixel_phase ?_).trans (if_neg hq).symm
      exact congrArg Pixel.phase (startFade_pixel_ne s c (Ne.symm hq))
  | stopfading q =>
    refine .inl ?_
    by_cases hq : q.toNat = p
    · subst hq
      cases (exec_stopfading_of_lt hp).symm.trans h
      refine (Pixel.phase_eq_idle_iff.mpr ?_).trans (if_pos rfl).symm
      exact getBit_putBit_self ..
    · cases h
      have hother : ((s.setFading q.toNat false).respond 0).pixel p = s.pixel p := by simp [State.pixel, Ne.symm hq]
      refine (onPixel_phase ?_).trans (if_neg hq).symm
      exact congrArg Pixel.phase hother
  | freset => cases h; exact .inl (phase_turnDown_scan hp)
  | capstep q | isfading q | gettarget q => cases h; exact .inl (onPixel_phase (Pixel.phase_congr rfl rfl))
  | nop | setfademode | countfading | anyfading | extinguished | reduce | expand | reservedE | reservedF =>
    cases h; exact .inl rfl

/-- No operation but SETFADING of a pixel raises the pixel's phase (42 R109). -/
theorem exec_next_phase_rank_le {i : Instr} {s t : State} {p : Nat} (hp : p < s.cfg.pixels) (h : exec i s = .next t)
    (hi : ¬ ∃ (q : Pix) (c : Color), i = .setfading q c ∧ q.toNat = p) :
    (t.pixel p).phase.rank ≤ (s.pixel p).phase.rank := by
  obtain htable | ⟨-, -, -, hpixel⟩ := exec_next_phase hp h
  · rw [htable]
    exact rank_phaseAfter_le hi _
  · rw [hpixel]
    exact Pixel.rank_phase_ticked_le _ _

/-- Settles O50: each operation follows the table on the pixel, or is the pixel's own tick. -/
theorem pixelLifeFollowsItsTable : Obligations.PixelLifeFollowsItsTable := by
  intro i s p hp
  obtain ⟨t, hexec, -⟩ := exec_cfg i s
  refine ⟨t, hexec, fun now hi he hup => ?_, fun now hi he hdown => ?_, fun hidle => ?_, fun hfrom hto => ?_,
    fun hfrom hto => ?_⟩
  · subst hi
    rw [exec_tick_next_pixel hp he hexec]
    exact Pixel.phase_ticked_of_up _ hup
  · subst hi
    rw [exec_tick_next_pixel hp he hexec]
    exact Pixel.phase_ticked_of_down _ hdown
  · obtain htable | ⟨now, rfl, he, hpixel⟩ := exec_next_phase hp hexec
    · exact htable
    · have hfrom := hidle now rfl he
      rw [hpixel, Pixel.phase_ticked_of_idle _ hfrom, hfrom]
      rfl
  · by_contra hi
    exact hfrom (Phase.eq_up_of_rank_le (hto ▸ exec_next_phase_rank_le hp hexec hi))
  · by_contra hi
    exact hto (Phase.eq_idle_of_rank_le (hfrom ▸ exec_next_phase_rank_le hp hexec hi))

end Sys2Proof.Machine

/-! # 43: the queries

The value each query of the engine's state answers (43 R115 to R120), and that no query changes anything but the
response, which no operation reads (43 R121). -/

namespace Sys2Proof.Machine

/-! ## 43 R115 to R117: how many pixels are fading, and whether any is -/

theorem bitResp_eq_one_iff (b : Bool) : bitResp b = 1 ↔ b = true := by cases b <;> decide

theorem toNat_bitResp (b : Bool) : (bitResp b).toNat = if b then 1 else 0 := by cases b <;> rfl

/-- A count of pixels fits the response, N being at most 256 (00 R6). -/
theorem toNat_ofNat_countPixels {s : State} (hN : s.cfg.wellFormed) (f : Nat → Bool) :
    (BitVec.ofNat 32 (s.countPixels f)).toNat = s.countPixels f := by
  have hle := s.countPixels_le f
  have hN256 := hN.2
  exact Nat.mod_eq_of_lt (by omega)

theorem State.countPixels_ne_zero_iff (s : State) (f : Nat → Bool) :
    s.countPixels f ≠ 0 ↔ ∃ p, p < s.cfg.pixels ∧ f p = true := by
  simp [State.countPixels, List.length_eq_zero_iff, List.filter_eq_nil_iff]

theorem anyFading_iff (s : State) : anyFading s = true ↔ ∃ p, p < s.cfg.pixels ∧ s.isFading p = true := by
  simp [anyFading_eq]

theorem exec_countfading (s : State) :
    exec .countfading s = .next (s.respond (BitVec.ofNat 32 (s.countPixels s.isFading))) := by
  rw [← countFading_eq]
  rfl

/-- Settles O41: the response holds the whole count, which is at most N. -/
theorem countfadingCounts : Obligations.CountfadingCounts := by
  intro s hN
  have hcount := toNat_ofNat_countPixels hN s.isFading
  refine ⟨_, exec_countfading s, hcount, ?_⟩
  rw [hcount]
  exact (s.countPixels_le s.isFading).trans hN.2

/-- Settles O42: both answers say whether there is a fading pixel below N. -/
theorem anyfadingAgreesWithCount : Obligations.AnyfadingAgreesWithCount := by
  intro s hN
  have hany : bitResp (anyFading s) = 1 ↔ ∃ p, p < s.cfg.pixels ∧ s.isFading p = true :=
    (bitResp_eq_one_iff _).trans (anyFading_iff s)
  have hcount : BitVec.ofNat 32 (s.countPixels s.isFading) ≠ 0 ↔ ∃ p, p < s.cfg.pixels ∧ s.isFading p = true := by
    rw [← s.countPixels_ne_zero_iff, BitVec.toNat_ne, toNat_ofNat_countPixels hN]
    rfl
  refine ⟨_, _, rfl, exec_countfading s, hany.mpr, fun hnone => ?_, hany.trans hcount.symm⟩
  have hfalse : anyFading s = false := by simpa [anyFading_eq] using hnone
  rw [hfalse]
  rfl

/-! ## 43 R118: EXTINGUISHED -/

/-- Settles O43: the response is EXTCNT, extended by zeros. -/
theorem extinguishedReturnsExtcnt : Obligations.ExtinguishedReturnsExtcnt := fun _ =>
  ⟨_, rfl, extractLsb'_zeroExtend _ (by decide), extractLsb'_eq_zero_of_getLsbD fun i _ => by simp⟩

/-! ## 43 R119, R120: the queries of one pixel -/

/-- A query of one pixel only answers: 0 for a pixel number out of range (41 R91). -/
theorem onPixel_answer (s : State) (p : Pix) (r : Nat → Resp) :
    onPixel s p (fun n => s.respond (r n)) = s.respond (if p.toNat < s.cfg.pixels then r p.toNat else 0) := by
  by_cases hp : p.toNat < s.cfg.pixels
  · rw [onPixel_of_lt hp, if_pos hp]
  · rw [onPixel_of_ge (Nat.not_lt.mp hp), if_neg hp]

theorem exec_isfading (s : State) (p : Pix) : exec (.isfading p) s =
    .next (s.respond (if p.toNat < s.cfg.pixels then bitResp (s.isFading p.toNat) else 0)) :=
  congrArg Host.Outcome.next (onPixel_answer s p fun n => bitResp (s.isFading n))

theorem exec_gettarget (s : State) (p : Pix) : exec (.gettarget p) s =
    .next (s.respond (if p.toNat < s.cfg.pixels then (s.targetOf p.toNat).zeroExtend 32 else 0)) :=
  congrArg Host.Outcome.next (onPixel_answer s p fun n => (s.targetOf n).zeroExtend 32)

/-- Settles O44: the packed bit of 20 R31 is the fading bit of an existing pixel. -/
theorem isfadingReturnsTheBit : Obligations.IsfadingReturnsTheBit := by
  intro s p
  refine ⟨_, exec_isfading s p, ?_⟩
  change _ = if p.toNat < s.cfg.pixels ∧ s.isFading p.toNat then 1 else 0
  by_cases hp : p.toNat < s.cfg.pixels
  · simp only [hp, if_true, true_and, toNat_bitResp]
  · simp [hp]

/-- A byte with bits 5 and 2 clear has them clear in the response. -/
theorem zeroExtend_and_0x24 {q : Byte} (h : q &&& 0x24 = 0) : q.zeroExtend 32 &&& 0x24 = 0 :=
  calc q.zeroExtend 32 &&& 0x24
      = (q &&& 0x24).zeroExtend 32 := (BitVec.setWidth_and (x := q) (y := 0x24)).symm
    _ = 0 := by rw [h]; rfl

/-- Settles O45: the response is the stored byte, extended by zeros, and under the invariant that byte is reachable. -/
theorem gettargetReturnsTheByte : Obligations.GettargetReturnsTheByte := by
  intro s p
  refine ⟨_, exec_gettarget s p, ?_⟩
  by_cases hp : p.toNat < s.cfg.pixels
  · rw [if_pos hp, if_pos hp]
    exact ⟨BitVec.toNat_setWidth_of_le (by decide), fun hs => zeroExtend_and_0x24 (hs.targetReachable p.toNat)⟩
  · rw [if_neg hp, if_neg hp]
    exact ⟨rfl, fun _ => BitVec.zero_and⟩

/-! ## 43 R121: no operation reads the response -/

/-- A scan whose visits commute with `g` commutes with it as a whole. -/
theorem forPixels_comm {α : Type} {f : Nat → α → α} {g : α → α} (h : ∀ p a, f p (g a) = g (f p a)) (n : Nat) (a : α) :
    forPixels n f (g a) = g (forPixels n f a) := by
  simp only [forPixels_eq_foldl]
  exact List.foldl_hom g fun a p => h p a

theorem turnDown_respond (p : Nat) (s : State) (r : Resp) : turnDown p (s.respond r) = (turnDown p s).respond r := by
  unfold turnDown
  rw [State.respond_isFading]
  split <;> rfl

theorem applyStep_respond (s : State) (p : Nat) (r : Resp) :
    applyStep (s.respond r) p = ((applyStep s p).1, (applyStep s p).2.respond r) := rfl

theorem finishLeg_respond (s : State) (p : Nat) (r : Resp) :
    finishLeg (s.respond r) p = (finishLeg s p).respond r := by
  unfold finishLeg
  rw [State.respond_dirOf, State.respond_fadeInOnly]
  split
  · split <;> rfl
  · rfl

theorem visitPixel_respond (p : Nat) (k : Bool × State) (r : Resp) :
    visitPixel p (k.map id (State.respond · r)) = (visitPixel p k).map id (State.respond · r) := by
  unfold visitPixel
  simp only [Prod.map_snd, State.respond_isFading, applyStep_respond, finishLeg_respond]
  split
  · split <;> rfl
  · rfl

theorem scanPixels_beginTick_respond (now : Time) (s : State) (r : Resp) :
    scanPixels (beginTick now (s.respond r)) = (scanPixels (beginTick now s)).map id (State.respond · r) :=
  forPixels_comm (fun p k => visitPixel_respond p k r) s.cfg.pixels (false, beginTick now s)

/-- An operation with a pixel operand does not read the response if it does not on an existing pixel. -/
theorem onPixel_respond {s : State} {p : Pix} {r : Resp} {f f' : Nat → State} (h : f' p.toNat = f p.toNat) :
    onPixel (s.respond r) p f' = onPixel s p f := by
  unfold onPixel
  rw [h]
  rfl

/-- Every operation writes the response and reads it nowhere, so the one before it leaves no trace (log 5). -/
theorem exec_respond (j : Instr) (s : State) (r : Resp) : exec j (s.respond r) = exec j s := by
  cases j with
  | tick now =>
    cases he : isEligible now s.nextt with
    | true => rw [exec_tick_eligible he, exec_tick_eligible (s := s.respond r) he, scanPixels_beginTick_respond]; rfl
    | false => rw [exec_tick_ineligible he, exec_tick_ineligible (s := s.respond r) he]; rfl
  | freset =>
    rw [exec, execFreset, State.respond_cfg, forPixels_comm fun p t => turnDown_respond p t r]
    rfl
  | setfading | stopfading | isfading | gettarget | capstep => exact congrArg Host.Outcome.next (onPixel_respond rfl)
  | nop | setfademode | countfading | anyfading | extinguished | reduce | expand | reservedE | reservedF => rfl

/-- A query is none of the operations that have an effect beside their answer. -/
theorem exec_query {i : Instr} (hq : Query i) (s : State) : ∃ r, exec i s = .next (s.respond r) := by
  obtain ⟨t, ht, -⟩ := exec_cfg i s
  cases exec_effect ht with
  | answer i r => exact ⟨r, ht⟩
  | setfading | stopfading | capstep | freset | setfademode | tick => exact hq.elim

/-- Settles O46: a query only answers, and no operation reads the answer. -/
theorem queriesArePure : Obligations.QueriesArePure := by
  intro i j s hq
  obtain ⟨r, hr⟩ := exec_query hq s
  exact ⟨r, hr, exec_respond j s r⟩

end Sys2Proof.Machine

/-! # 49: the host's strip

The two acts of the host on its strip leave the state as taking their move off the list leaves it. -/

namespace Sys2Proof.Machine

/-! ## 49 R125 d, e -/

theorem step_present {s : State} {rest : List HostMove} (h : s.host = .present :: rest) :
    step s = hostPresent (takeMove s rest) := by
  rw [step, h]

theorem step_setBrightness {s : State} {level : Byte} {rest : List HostMove}
    (h : s.host = .setBrightness level :: rest) : step s = hostSetBrightness level (takeMove s rest) := by
  rw [step, h]

/-- Settles O55: either move is taken off the list, with the outputs of the step before, and nothing else is done. -/
theorem presentAndBrightnessChangeNothing : Obligations.PresentAndBrightnessChangeNothing := by
  intro s m rest hm hhost
  obtain rfl | ⟨level, rfl⟩ := hm
  · exact step_present hhost
  · exact step_setBrightness hhost

end Sys2Proof.Machine

/-! # 60: every command completes, and the engine waits

No command word is an error: what an operation can do is listed in `Effect`, and each of its cases gives a response. With
no move waiting the step is the idle one. -/

namespace Sys2Proof.Machine

/-! ## 60 R140 -/

/-- Whatever an operation does to the state, giving its response is the last thing it does. -/
theorem Effect.responds {s t : State} {i : Instr} (h : Effect s i t) : ∃ r, t.resp = some r := by
  cases h with
  | answer | setfading | stopfading | capstep | freset | setfademode | tick => exact ⟨_, State.respond_resp _ _⟩

theorem exec_completes_with_response (i : Instr) (s : State) : ∃ t r, exec i s = .next t ∧ t.resp = some r := by
  obtain ⟨t, ht, -⟩ := exec_cfg i s
  obtain ⟨r, hr⟩ := (exec_effect ht).responds
  exact ⟨t, r, ht, hr⟩

/-- Settles O7: every operation completes with a response, and a step on a command word runs the operation it decodes
to. -/
theorem everyCommandCompletesWithAResponse : Obligations.EveryCommandCompletesWithAResponse := by
  refine ⟨exec_completes_with_response, fun s w rest hhost => ?_⟩
  rw [step_command hhost]
  exact exec_completes_with_response (decode w) (takeMove s rest)

/-! ## 60 R156 -/

theorem step_nil {s : State} (h : s.host = []) : step s = idle s := by
  rw [step, h]

/-- Settles O9: the idle step only clears the outputs of the step before. -/
theorem idleEngineKeepsItsState : Obligations.IdleEngineKeepsItsState := fun _ h => step_nil h

end Sys2Proof.Machine

/-! # 70: hardware reset

The state right after reset, `rst` between two operations and during one, and the first tick after it. -/

namespace Sys2Proof.Machine

/-! ## 70 R161, R163: right after reset -/

theorem getBit_nil (p : Nat) : getBit [] p = false := by
  rw [getBit, readMem_nil]
  exact BitVec.getLsbD_zero

/-- Settles O10: the three spaces list no entry, and an unlisted entry reads as 0, so every packed bit is 0 too. -/
theorem resetValues : Obligations.ResetValues := fun _ _ =>
  ⟨readMem_nil, readMem_nil, readMem_nil, rfl, rfl, rfl, rfl, rfl, getBit_nil,
    fun p => congrArg Direction.ofBit (getBit_nil p)⟩

/-- Settles O13: the rate limiter measures from NEXTT, which reset puts at 0, so the difference is `now` itself. -/
theorem firstTickAfterReset : Obligations.FirstTickAfterReset := by
  intro cfg live now
  obtain ⟨t, r, ht, hresp, heligible⟩ := tickEligibility (State.resetWith cfg live) now
  have hdiff : (now.toNat + 2 ^ 32 - (State.resetWith cfg live).nextt.toNat) % 2 ^ 32 = now.toNat := by
    have hnextt : (State.resetWith cfg live).nextt.toNat = 0 := rfl
    omega
  rw [hdiff] at heligible
  exact ⟨t, r, ht, hresp, heligible⟩

/-! ## 70 R160, R162: `rst` -/

theorem step_rst {s : State} {rest : List HostMove} (h : s.host = .rst :: rest) :
    step s = .next (hardReset (takeMove s rest)) := by
  rw [step, h]
  rfl

/-- Settles O11: the state after `rst` is made of N, LIVE and the coming moves alone. -/
theorem rstResetsTheEngineOnly : Obligations.RstResetsTheEngineOnly := fun _ _ hhost =>
  ⟨_, step_rst hhost, readMem_nil, readMem_nil, readMem_nil, rfl, rfl, rfl, rfl, rfl, rfl, rfl⟩

theorem step_abandon {s : State} {w : Cmd} {made : Nat} {rest : List HostMove} (h : s.host = .abandon w made :: rest) :
    step s = hostAbandon made (exec (decode w) (takeMove s rest)) (takeMove s rest) := by
  rw [step, h]
  rfl

/-- An operation run on a state with its outputs cleared: its port holds its own accesses only, and they make its LIVE. -/
theorem exec_takeMove_next_live {i : Instr} {s t : State} {rest : List HostMove}
    (h : exec i (takeMove s rest) = .next t) : t.live = t.livePort.foldl replayAccess s.live := by
  obtain ⟨new, hport, hlive⟩ := exec_next_liveReplays h
  have hown : t.livePort = new := hport
  rw [hown]
  exact hlive

/-- Settles O12: the engine is reset as by `rst`; none of the operation's accesses leave LIVE alone, and all of them make
the LIVE of the whole operation. -/
theorem rstAbandonsAnOperation : Obligations.RstAbandonsAnOperation := by
  intro s w made rest hhost
  obtain ⟨whole, hwhole, -⟩ := exec_cfg (decode w) (takeMove s rest)
  have hstep := step_abandon hhost
  rw [hwhole] at hstep
  refine ⟨whole, _, hwhole, hstep, readMem_nil, readMem_nil, readMem_nil, rfl, rfl, rfl, rfl, rfl, rfl, rfl, rfl, ?_, ?_⟩
  · rintro rfl
    rfl
  · intro hall
    rw [exec_takeMove_next_live hwhole]
    exact congrArg (List.foldl replayAccess s.live) (List.take_of_length_le hall)

end Sys2Proof.Machine
